-- ==== Sys2Proof/Word.lean ====
section
/-! DEFINITION. The widths of 00_scope R9: every value is an unsigned integer of a stated width. -/

namespace Sys2Proof

/-- `u8`: a byte of a transaction, of BUF or of a response. -/
abbrev Byte := BitVec 8

/-- `u64`: a chaining-value lane (R6 LANE_BITS). -/
abbrev U64 := BitVec 64

/-- `u128`: a block part (R6 PART_BITS). -/
abbrev U128 := BitVec 128

/-- `u256`: the chaining value (R6 CV_BITS). -/
abbrev U256 := BitVec 256

end Sys2Proof
end

