-- ==== Sys2Proof/Config.lean ====
section
/-! DEFINITION. The constants of 00_scope R6, the run parameter of R7, and the free values for what the spec leaves
unspecified. -/

namespace Sys2Proof

/-- SPILL_POLICY (00_scope R7): what FIN means when 56 <= CNT <= 63. -/
inductive SpillPolicy where
  | twoBlocks
  | refuse
  deriving DecidableEq, Repr

/-- The default of SPILL_POLICY (R7), "the behaviour every rule of this spec states". -/
def Config.defaultSpillPolicy : SpillPolicy := .twoBlocks

/-- BLOCK_BYTES (R6). -/
abbrev Config.blockBytes : Nat := 64

/-- TARGET_BITS (R6), the padder's `target_bits`. -/
abbrev Config.targetBits : Nat := 512

/-- ROT (R6), the left rotation inside a part. -/
abbrev Config.rot : Nat := 3

/-- LEN_BITS (R6), the width of the padder's length field. -/
abbrev Config.lenBits : Nat := 64

/-- DESIGN CHOICE (assumption 3). What the four lanes hold after the `n`-th reset, which 10_state R35 and
43_control_commands R170 leave unspecified: a free value, of which nothing is known. -/
opaque Config.freeCval : Nat → U256

/-- DESIGN CHOICE (assumption 2). What byte `j` of BUF holds after the `n`-th reset when nothing has been written to it
since (93_implementation_defined U2, "any value"): a free value. -/
opaque Config.staleByte : Nat → Nat → Byte

end Sys2Proof
end

