-- ==== Sys2Proof/Machine/State.lean ====
section
/-! DEFINITION. The state of one HASHCORE instance (10_state R20), the spec's observation of it (R33) and the
parameters of a run (R36), all plain data; the reset state (R35); and the reasons a step can stop. -/

namespace Sys2Proof.Machine

/-- BUF (10_state R24, 20_memory R40) as the bytes written since the last reset, at rising offsets below 64. An offset
that is not listed has no value (assumption 2). -/
abbrev Memory := List Host.Cell

/-- PH (10_state R26). -/
inductive Phase where
  /-- 0b00: the reset state, no chaining value loaded. -/
  | idle
  /-- 0b01: a chaining value is loaded and input is accepted. -/
  | absorb
  /-- 0b10: finalised, CVAL is the digest. -/
  | done
  /-- 0b11: a command was rejected. -/
  | fault
  deriving DecidableEq, Repr

/-- An event of the trace (10_state R33). -/
inductive Event where
  /-- The padder was applied to `r` buffered bytes in order to compress the result. -/
  | pad (r : Nat)
  /-- The compressor produced a chaining value that was written to CVAL. -/
  | compress (blk : List Byte) (cvIn cvOut : U256)
  deriving DecidableEq, Repr

/-- What the host can do to the core (30_encoding R60, R71; 70_reset R210). -/
inductive PortInput where
  /-- A whole transaction. -/
  | transaction (t : List Byte)
  /-- A transaction begun with these bytes whose end the interface has not marked (R71). -/
  | unfinished (t : List Byte)
  /-- The hardware reset input. -/
  | reset
  deriving DecidableEq, Repr

/-- The state of the machine. -/
structure State where
  /-- CV[0], bits 255:192 of CVAL (10_state R21). -/
  cv0 : U64
  /-- CV[1], bits 191:128. -/
  cv1 : U64
  /-- CV[2], bits 127:64. -/
  cv2 : U64
  /-- CV[3], bits 63:0. -/
  cv3 : U64
  /-- BUF[0..63] (R24). -/
  buf : Memory
  /-- CNT (R25). -/
  cnt : BitVec 6
  /-- PH (R26). -/
  ph : Phase
  /-- ERRC (R27). -/
  errc : Byte
  /-- What the host has sent and the core has not taken yet, oldest first (R36; assumption 5). -/
  port : List PortInput
  /-- The responses returned so far, oldest first (30_encoding R72; assumption 7). -/
  responses : List (List Byte)
  /-- The event trace since the last hardware reset (10_state R33; assumption 8). -/
  trace : List Event
  /-- SPILL_POLICY, fixed for a run (00_scope R7; assumption 9). -/
  spillPolicy : SpillPolicy
  /-- The model's own: which draw of the free values stands for what the last reset left unspecified (assumption 3). -/
  draws : Nat
  deriving DecidableEq, Repr

/-- Why the machine stops where the spec says a behaviour is a fatal error. -/
inductive Fault where
  /-- Raised by WRK on a term whose block is not 64 bytes, the source's `InvariantViolation` (60_exceptions R196). No
  transaction decodes to such a term, so no step raises it. Safe. -/
  | invariantViolation
  deriving DecidableEq, Repr

/-- Why the model gives no meaning. -/
inductive Refusal where
  /-- Raised by an arm of `exec` whose instruction has no meaning in the model. Safe. -/
  | notModelled (mnemonic : String)
  /-- Raised by FIN with 56 <= CNT <= 63 under SPILL_POLICY = Refuse, as 00_scope R7 asks. Safe. -/
  | spillRefused
  deriving DecidableEq, Repr

/-- The machine right after hardware reset (10_state R35). DESIGN CHOICE (assumptions 1, 2, 3): the lanes, which R35
leaves unspecified, are zero, no byte of BUF is listed and no draw has been made. -/
def State.reset : State where
  cv0 := 0
  cv1 := 0
  cv2 := 0
  cv3 := 0
  buf := []
  cnt := 0
  ph := .idle
  errc := 0x00#8
  port := []
  responses := []
  trace := []
  spillPolicy := Config.defaultSpillPolicy
  draws := 0

end Sys2Proof.Machine
end

