-- ==== Sys2Proof/Machine/Flags.lean ====
section
/-! DEFINITION. There are no arithmetic flags (10_state R30). This file holds the status fields a host can see instead:
the codes of PH (R26), the error codes (30_encoding R73) and the STATUS view (10_state R28). -/

namespace Sys2Proof.Machine

/-- The 2-bit value of a phase (10_state R26). -/
def Phase.code : Phase → BitVec 2
  | .idle => 0b00#2
  | .absorb => 0b01#2
  | .done => 0b10#2
  | .fault => 0b11#2

/-- The four causes of a fault (60_exceptions R181 to R184). -/
inductive Error where
  /-- E_ILLEGAL: an empty transaction or an undefined opcode. -/
  | illegal
  /-- E_LENGTH: a defined opcode with the wrong transaction length. -/
  | length
  /-- E_PHASE: a command not allowed in the current phase. -/
  | phase
  /-- E_ALIGN: WRK while CNT is not 0. -/
  | align
  deriving DecidableEq, Repr

/-- The code of an error, both the response status and what ERRC stores (30_encoding R73). -/
def Error.code : Error → Byte
  | .illegal => 0x01#8
  | .length => 0x02#8
  | .phase => 0x03#8
  | .align => 0x04#8

/-- The status OK (R73). -/
def statusOk : Byte := 0x00#8

/-- The status E_FAULTED (R73), never stored in ERRC (60_exceptions R185). -/
def statusFaulted : Byte := 0x05#8

/-- STATUS = PH * 2^14 + CNT * 2^8 + ERRC (10_state R28). -/
def State.status (s : State) : BitVec 16 := s.ph.code ++ s.cnt ++ s.errc

end Sys2Proof.Machine
end

