-- ==== Sys2Proof/Syntax.lean ====
section
/-! DEFINITION. The commands of 30_encoding R62: one constructor for each row of spec/opcode_table.json. -/

namespace Sys2Proof

/-- A decoded command with its operands (30_encoding R62 to R66). -/
inductive Instr where
  /-- RST, 0x10: back to the reset state (43_control_commands R170). -/
  | rst
  /-- RDS, 0x11: read PH, CNT and ERRC (R171). -/
  | rds
  /-- SEED, 0x20: load the initial chaining value (42_driver_commands R140). -/
  | seed (v : U256)
  /-- WRB, 0x30: the next byte of the stream (R141). -/
  | wrb (b : Byte)
  /-- WRK, 0x31: the next whole block, its 64 bytes in stream order (41_compressor R135). -/
  | wrk (blk : List Byte)
  /-- FIN, 0x40: end of stream (42_driver_commands R143). -/
  | fin
  /-- PADQ, 0x41: the padding of the buffered bytes (40_padder R108). -/
  | padq
  /-- RDD, 0x50: the digest as 32 bytes (42_driver_commands R150). -/
  | rdd
  /-- RDX, 0x51: the digest as 64 hexadecimal characters (R151). -/
  | rdx
  deriving DecidableEq, Repr

end Sys2Proof
end

