-- ==== Sys2Proof/WellFormed.lean ====
section
/-! DEFINITION. Which terms of `Instr` are commands: the operand of WRK is exactly 64 bytes (30_encoding R65). -/

namespace Sys2Proof

/-- The one condition on an operand that its type does not already make: a block is "exactly 64 bytes" (20_memory R44).
Every u256 is a seed and every u8 a byte (30_encoding R63, R64). -/
def Instr.wellFormed : Instr → Bool
  | .wrk blk => blk.length == Config.blockBytes
  | .rst => true
  | .rds => true
  | .seed _ => true
  | .wrb _ => true
  | .fin => true
  | .padq => true
  | .rdd => true
  | .rdx => true

end Sys2Proof
end

