-- ==== Sys2Proof/Decode.lean ====
section
/-! DEFINITION. Byte sequences as numbers (00_scope R12), the command map (30_encoding R61, R62), the decoder (R66 to
R69) and an encoder written from the same tables. -/

namespace Sys2Proof

/-- `be(s)` (00_scope R12): the big-endian number of a byte sequence, its first byte the most significant. -/
def be : List Byte → Nat
  | [] => 0
  | b :: s => b.toNat * 256 ^ s.length + be s

/-- `bytes_be(n, v)` (00_scope R12): the `n` bytes of `v`, most significant first. -/
def bytesBe : Nat → Nat → List Byte
  | 0, _ => []
  | n + 1, v => BitVec.ofNat 8 (v / 256 ^ n) :: bytesBe n v

/-- The nine opcodes by name (30_encoding R62). -/
inductive Opcode where
  | rst | rds | seed | wrb | wrk | fin | padq | rdd | rdx
  deriving DecidableEq, Repr

/-- Byte 0 of each command (R62). -/
def Opcode.byte : Opcode → Byte
  | .rst => 0x10#8
  | .rds => 0x11#8
  | .seed => 0x20#8
  | .wrb => 0x30#8
  | .wrk => 0x31#8
  | .fin => 0x40#8
  | .padq => 0x41#8
  | .rdd => 0x50#8
  | .rdx => 0x51#8

/-- The opcode a byte names: all eight bits are compared (R62), and the 247 other values name none (R67). -/
def Opcode.ofByte (b : Byte) : Option Opcode :=
  if b = 0x10#8 then some .rst
  else if b = 0x11#8 then some .rds
  else if b = 0x20#8 then some .seed
  else if b = 0x30#8 then some .wrb
  else if b = 0x31#8 then some .wrk
  else if b = 0x40#8 then some .fin
  else if b = 0x41#8 then some .padq
  else if b = 0x50#8 then some .rdd
  else if b = 0x51#8 then some .rdx
  else none

/-- The total length in bytes of each command's format: N is 1, B is 2, V is 33, K is 65 (R61, R62). -/
def Opcode.length : Opcode → Nat
  | .rst => 1
  | .rds => 1
  | .seed => 33
  | .wrb => 2
  | .wrk => 65
  | .fin => 1
  | .padq => 1
  | .rdd => 1
  | .rdx => 1

/-- Operand assembly from the payload (30_encoding R63, R64, R65). -/
def Opcode.assemble (payload : List Byte) : Opcode → Instr
  | .rst => .rst
  | .rds => .rds
  | .seed => .seed (BitVec.ofNat 256 (be payload))
  | .wrb => .wrb (payload.headD 0)
  | .wrk => .wrk payload
  | .fin => .fin
  | .padq => .padq
  | .rdd => .rdd
  | .rdx => .rdx

/-- The result of decoding (R66): a command with its operands, `Illegal` or `BadLength`. -/
inductive Decoded where
  | command (i : Instr)
  | illegal
  | badLength
  deriving DecidableEq, Repr

/-- The decoder (R66), total on byte strings. The length comes from the transaction's frame and is compared with the
opcode's (R70). -/
def decode : List Byte → Decoded
  | [] => .illegal
  | b :: payload =>
    match Opcode.ofByte b with
    | none => .illegal
    | some op =>
      if payload.length + 1 = op.length then .command (op.assemble payload) else .badLength

/-- The opcode of a command (R62). -/
def Instr.opcode : Instr → Opcode
  | .rst => .rst
  | .rds => .rds
  | .seed _ => .seed
  | .wrb _ => .wrb
  | .wrk _ => .wrk
  | .fin => .fin
  | .padq => .padq
  | .rdd => .rdd
  | .rdx => .rdx

/-- The payload bytes that carry a command's operand (R63, R64, R65). -/
def Instr.payload : Instr → List Byte
  | .rst => []
  | .rds => []
  | .seed v => bytesBe 32 v.toNat
  | .wrb b => [b]
  | .wrk blk => blk
  | .fin => []
  | .padq => []
  | .rdd => []
  | .rdx => []

/-- The transaction of a command (R61): the opcode in byte 0, then the payload. -/
def encode (i : Instr) : List Byte := i.opcode.byte :: i.payload

/-- The first `n` bytes of a number whose bits are counted from the first byte on: byte `k` is bits `8k+7..8k`, as
spec/opcode_table.json numbers them. -/
def tableBytes : Nat → Nat → List Byte
  | 0, _ => []
  | n + 1, w => BitVec.ofNat 8 w :: tableBytes n (w / 256)

/-- The frame for a word of the opcode table: the table's own bytes, drawn out with zeros to the length of the opcode's
format (assumption 14). -/
def tableTransaction (nbits w : Nat) : List Byte :=
  let named := match Opcode.ofByte (BitVec.ofNat 8 w) with
    | some op => op.length
    | none => 0
  tableBytes (nbits / 8) w ++ List.replicate (named - nbits / 8) 0x00#8

/-- What the decoder reads from a word of the opcode table (assumption 14). -/
def decodeTableWord (nbits w : Nat) : Option Instr :=
  match decode (tableTransaction nbits w) with
  | .command i => some i
  | .illegal => none
  | .badLength => none

end Sys2Proof
end

