-- ==== Sys2Proof/Machine/Operands.lean ====
section
/-! DEFINITION. The operand views the commands take: the lanes of a chaining value (10_state R21, 41_compressor R123,
R128), the parts of a block (R121), the blocks of a padded chunk (42_driver_commands R143), and bit sequences (00_scope
R13, 20_memory R42). -/

namespace Sys2Proof.Machine

/-- Lane `i` of a 256-bit value, `v[255-64i : 192-64i]` (10_state R21). -/
def laneOf (v : U256) (i : Fin 4) : U64 := v.extractLsb' (192 - 64 * i.val) 64

/-- Four lanes as one value, lane 0 most significant (41_compressor R128). -/
def joinLanes (l0 l1 l2 l3 : U64) : U256 := l0 ++ l1 ++ l2 ++ l3

/-- Part `i` of a block, `be(blk[16i .. 16i+15])` (41_compressor R121). -/
def part (blk : List Byte) (i : Fin 4) : U128 :=
  BitVec.ofNat 128 (be ((blk.drop (16 * i.val)).take 16))

/-- The consecutive 64-byte blocks of a byte sequence, `p[64k .. 64k+63]` for `k` below `len(p)/64`
(42_driver_commands R143). -/
def blocksOf (p : List Byte) : List (List Byte) :=
  (List.range (p.length / Config.blockBytes)).map fun k => (p.drop (Config.blockBytes * k)).take Config.blockBytes

/-- The eight bits of a byte, bit 7 first (00_scope R13). -/
def byteBits (b : Byte) : List Bool :=
  [b.getLsbD 7, b.getLsbD 6, b.getLsbD 5, b.getLsbD 4, b.getLsbD 3, b.getLsbD 2, b.getLsbD 1, b.getLsbD 0]

/-- `bits(s)` (00_scope R13). -/
def bits (s : List Byte) : List Bool := s.flatMap byteBits

/-- The number a bit sequence spells, its first bit the most significant. -/
def ofBits : List Bool → Nat
  | [] => 0
  | q :: qs => q.toNat * 2 ^ qs.length + ofBits qs

/-- `unbits(q)` (00_scope R13): groups of eight bits, back to bytes. Bits after the last whole group are outside its
domain and are left out. -/
def unbits : List Bool → List Byte
  | b7 :: b6 :: b5 :: b4 :: b3 :: b2 :: b1 :: b0 :: q =>
    BitVec.ofNat 8 (ofBits [b7, b6, b5, b4, b3, b2, b1, b0]) :: unbits q
  | _ => []

/-- `bits_be(n, v)` (00_scope R13): the `n` bits of `v`, most significant first. -/
def bitsBe : Nat → Nat → List Bool
  | 0, _ => []
  | n + 1, v => v.testBit n :: bitsBe n v

end Sys2Proof.Machine
end

