-- ==== Sys2Proof/Machine/Ops.lean ====
section
/-! DEFINITION. The named operations over BUF, the lanes and the response (00_scope R14), fault entry (60_exceptions
R186), the way back from it (R191), and the phase check every command begins with (10_state R34). -/

namespace Sys2Proof.Machine

/-- What an offset of BUF that is not listed holds: no value (assumption 2). -/
def Memory.unlisted : Option Byte := none

/-- The byte listed at an offset. -/
def Memory.read : Memory → Nat → Option Byte
  | [], _ => Memory.unlisted
  | (a, b) :: m, j => if j = a then some b else Memory.read m j

/-- Store one byte, keeping the offsets rising. -/
def Memory.write : Memory → Nat → Byte → Memory
  | [], j, v => [(j, v)]
  | (a, b) :: m, j, v =>
    if j < a then (j, v) :: (a, b) :: m
    else if j = a then (j, v) :: m
    else (a, b) :: Memory.write m j v

/-- The offsets rise strictly from `lo` on and all exist, that is, lie below 64 (20_memory R40). -/
def Memory.wfFrom : Nat → Memory → Bool
  | _, [] => true
  | lo, (a, _) :: m => decide (lo ≤ a) && decide (a < Config.blockBytes) && Memory.wfFrom (a + 1) m

/-- The canonical form of BUF. -/
def Memory.wf (m : Memory) : Bool := Memory.wfFrom 0 m

/-- BUF[j] (00_scope R14). A byte nothing has written since the last reset is a free value (93_implementation_defined U2;
assumption 2). -/
def State.bufByte (s : State) (j : Nat) : Byte := (s.buf.read j).getD (Config.staleByte s.draws j)

/-- BUF[0..n-1], in order. -/
def State.bufBytes (s : State) (n : Nat) : List Byte := (List.range n).map s.bufByte

/-- BUF[j] <- b (20_memory R45). -/
def State.storeByte (j : Nat) (b : Byte) (s : State) : State := { s with buf := s.buf.write j b }

/-- CVAL, the whole chaining value (10_state R21). -/
def State.cval (s : State) : U256 := joinLanes s.cv0 s.cv1 s.cv2 s.cv3

/-- CVAL <- v: all four lanes at once (10_state R22; 00_scope R14). -/
def State.setCval (v : U256) (s : State) : State :=
  { s with cv0 := laneOf v 0, cv1 := laneOf v 1, cv2 := laneOf v 2, cv3 := laneOf v 3 }

/-- CNT <- n. -/
def State.setCnt (n : BitVec 6) (s : State) : State := { s with cnt := n }

/-- PH <- p. -/
def State.setPhase (p : Phase) (s : State) : State := { s with ph := p }

/-- `emit` (00_scope R14): append an event to the trace. -/
def State.emit (e : Event) (s : State) : State := { s with trace := s.trace ++ [e] }

/-- `respond(st, data)` (30_encoding R72): the status byte, then the data. -/
def State.respond (st : Byte) (data : List Byte) (s : State) : State :=
  { s with responses := s.responses ++ [st :: data] }

/-- `raise`: fault entry (60_exceptions R186). PH and ERRC are written, the code is answered, nothing else changes. -/
def State.raise (e : Error) (s : State) : State :=
  ({ s with ph := .fault, errc := e.code }).respond e.code []

/-- The answer to everything but a well-formed RST or RDS while PH = FAULT (60_exceptions R185). -/
def State.answerFaulted (s : State) : State := s.respond statusFaulted []

/-- What RST and the hardware reset input have in common (10_state R35, 60_exceptions R191): CNT, PH and ERRC get their
reset values. The lanes become unspecified, a free value (assumption 3), and BUF loses its bytes (assumption 4). -/
def State.clear (s : State) : State :=
  ({ s with cnt := 0, ph := .idle, errc := 0x00#8, buf := [], draws := s.draws + 1 }).setCval
    (Config.freeCval (s.draws + 1))

/-- The hardware reset input (70_reset R210, R211): the reset state with an empty trace, and no response. -/
def State.hardwareReset (s : State) : State := { s.clear with trace := [] }

/-- The phase check of 10_state R34 in the order of 60_exceptions R189: `run` in the phases listed, E_FAULTED in FAULT
where FAULT is not listed, E_PHASE elsewhere. -/
def whenLegal (allowed : List Phase) (run : State → Host.Outcome State Fault Refusal) (s : State) :
    Host.Outcome State Fault Refusal :=
  if s.ph ∈ allowed then run s
  else if s.ph = .fault then .next s.answerFaulted
  else .next (s.raise .phase)

/-- A transaction that decodes to no command (60_exceptions R189): E_FAULTED in FAULT, else the error. -/
def State.rejectTransaction (e : Error) (s : State) : State :=
  if s.ph = .fault then s.answerFaulted else s.raise e

end Sys2Proof.Machine
end

