-- ==== Sys2Proof/Machine/Compressor.lean ====
section
/-! DEFINITION. The compression function (41_compressor R120 to R129) and WRK (R135). -/

namespace Sys2Proof.Machine

/-- `rotl128(x, k)` (R122). A left shift of a `BitVec 128` is already modulo 2^128. -/
def rotl128 (x : U128) (k : Nat) : U128 := (x <<< k) ||| (x >>> (128 - k))

/-- Step 3 for lane `i` (R122, R124 to R127). Only lanes of the old chaining value are read (R129), and the lane added
is the next one, circularly (R126). -/
def newLane (blk : List Byte) (cv : U256) (i : Fin 4) : U64 :=
  let r := rotl128 (part blk i) Config.rot
  let lower64 : U64 := r.extractLsb' 0 64
  let upper64 : U64 := r.extractLsb' 64 64
  let mixedLower := lower64 ^^^ laneOf cv i
  let mixedUpper := upper64 + laneOf cv (i + 1)
  (mixedLower * mixedLower) ^^^ mixedUpper

/-- `compress(blk, cv)` (R120): the four new lanes recombined (R128). -/
def compress (blk : List Byte) (cv : U256) : U256 :=
  joinLanes (newLane blk cv 0) (newLane blk cv 1) (newLane blk cv 2) (newLane blk cv 3)

/-- CVAL <- compress(blk, CVAL), with its event (R135, 42_driver_commands R141, R143). -/
def State.absorbBlock (s : State) (blk : List Byte) : State :=
  (s.setCval (compress blk s.cval)).emit (.compress blk s.cval (compress blk s.cval))

/-- WRK (R135). The last check is no rule of the core: a term whose block is not 64 bytes is no command (R133). -/
def execWrk (blk : List Byte) (s : State) : Host.Outcome State Fault Refusal :=
  whenLegal [.absorb] (fun s =>
    if s.cnt ≠ 0 then .next (s.raise .align)
    else if blk.length ≠ Config.blockBytes then .fault .invariantViolation
    else .next ((s.absorbBlock blk).respond statusOk [])) s

end Sys2Proof.Machine
end

