-- ==== Sys2Proof/Machine/Control.lean ====
section
/-! DEFINITION. The control commands RST and RDS (43_control_commands R170, R171), legal in every phase. -/

namespace Sys2Proof.Machine

/-- RST (R170). The trace is not cleared. -/
def execRst (s : State) : Host.Outcome State Fault Refusal :=
  whenLegal [.idle, .absorb, .done, .fault] (fun s => .next (s.clear.respond statusOk [])) s

/-- RDS (R171): the two bytes of STATUS. -/
def execRds (s : State) : Host.Outcome State Fault Refusal :=
  whenLegal [.idle, .absorb, .done, .fault] (fun s => .next (s.respond statusOk (bytesBe 2 s.status.toNat))) s

end Sys2Proof.Machine
end

