-- ==== Sys2Proof/Machine/Padder.lean ====
section
/-! DEFINITION. The padding engine (40_padder R100 to R109) and PADQ (R108). -/

namespace Sys2Proof.Machine

/-- The loop of step 3 of R100: append 0 bits while `(len(q) + 64) mod 512` is not 0. The fuel bounds the number of
zeros; 512 is always enough (R101). -/
def padZeros : Nat → List Bool → List Bool
  | 0, q => q
  | fuel + 1, q =>
    if (q.length + Config.lenBits) % Config.targetBits = 0 then q else padZeros fuel (q ++ [false])

/-- `pad(m)` at the level of bits (R100), step by step. -/
def padByBits (m : List Byte) : List Byte :=
  unbits (padZeros Config.targetBits (bits m ++ [true]) ++ bitsBe Config.lenBits (8 * m.length))

/-- The number of whole zero bytes between 0x80 and the length field (R102). -/
def padZeroBytes (r : Nat) : Nat := if r ≤ 55 then 55 - r else 119 - r

/-- `pad(m)` in the byte form the padding engine computes (R102). The length field is the length of the chunk, not of
the stream (R104). -/
def pad (m : List Byte) : List Byte :=
  m ++ 0x80#8 :: List.replicate (padZeroBytes m.length) 0x00#8 ++ bytesBe 8 (8 * m.length)

/-- The padding engine in the core (R109): pad(BUF[0..CNT-1]). -/
def State.padded (s : State) : List Byte := pad (s.bufBytes s.cnt.toNat)

/-- PADQ (R108). -/
def execPadq (s : State) : Host.Outcome State Fault Refusal :=
  whenLegal [.absorb] (fun s => .next (s.respond statusOk s.padded)) s

end Sys2Proof.Machine
end

