-- ==== Sys2Proof/Machine/Driver.lean ====
section
/-! DEFINITION. The digest-driver commands SEED, WRB, FIN, RDD and RDX (42_driver_commands R140 to R156) and the
function the pipeline computes (R161). -/

namespace Sys2Proof.Machine

/-- SEED (R140). BUF is not cleared. -/
def execSeed (v : U256) (s : State) : Host.Outcome State Fault Refusal :=
  whenLegal [.idle, .absorb, .done] (fun s =>
    .next ((((s.setCval v).setCnt 0).setPhase .absorb).respond statusOk [])) s

/-- What WRB does once it is legal (R141): store the byte, then count it, or compress the block it completes. -/
def State.appendByte (b : Byte) (s : State) : State :=
  let s1 := s.storeByte s.cnt.toNat b
  if s.cnt.toNat < 63 then s1.setCnt (s.cnt + 1)
  else (s1.absorbBlock (s1.bufBytes Config.blockBytes)).setCnt 0

/-- WRB (R141). -/
def execWrb (b : Byte) (s : State) : Host.Outcome State Fault Refusal :=
  whenLegal [.absorb] (fun s => .next ((s.appendByte b).respond statusOk [])) s

/-- The padding and compression of the short final chunk (R143 to R146): nothing when CNT is 0, else PAD(r) and one or
two compressions. -/
def State.absorbFinal (s : State) : State :=
  if s.cnt = 0 then s
  else (blocksOf s.padded).foldl State.absorbBlock (s.emit (.pad s.cnt.toNat))

/-- FIN (R143). Under SPILL_POLICY = Refuse it has no meaning when 56 <= CNT <= 63 (R146, 00_scope R7). -/
def execFin (s : State) : Host.Outcome State Fault Refusal :=
  whenLegal [.absorb] (fun s =>
    if s.spillPolicy = .refuse ∧ 56 ≤ s.cnt.toNat then .refused .spillRefused
    else .next (((s.absorbFinal.setCnt 0).setPhase .done).respond statusOk [])) s

/-- RDD (R150). -/
def execRdd (s : State) : Host.Outcome State Fault Refusal :=
  whenLegal [.done] (fun s => .next (s.respond statusOk (bytesBe 32 s.cval.toNat))) s

/-- `hexchar(d)` for `d` in 0..15 as its ASCII code (R156; assumption 15). -/
def hexChar (d : Nat) : Byte := if d ≤ 9 then BitVec.ofNat 8 (0x30 + d) else BitVec.ofNat 8 (0x61 + (d - 10))

/-- `hex64(v)` (R156): digit `k` is `v[255-4k : 252-4k]`. -/
def hex64 (v : U256) : List Byte := (List.range 64).map fun k => hexChar (v.toNat / 2 ^ (252 - 4 * k) % 16)

/-- RDX (R151). -/
def execRdx (s : State) : Host.Outcome State Fault Refusal :=
  whenLegal [.done] (fun s => .next (s.respond statusOk (hex64 s.cval))) s

/-- The blocks a stream puts through the compressor (R161): its whole blocks, then those of its padded remainder, if
there is one. -/
def streamBlocks (S : List Byte) : List (List Byte) :=
  let rest := S.drop (64 * (S.length / 64))
  blocksOf S ++ (if rest = [] then [] else blocksOf (pad rest))

/-- `digest_bytes(S, cv0)` (R161). -/
def digestBytes (S : List Byte) (cv0 : U256) : U256 := (streamBlocks S).foldl (fun cv q => compress q cv) cv0

/-- `digest(S, cv0)` (R161). -/
def digest (S : List Byte) (cv0 : U256) : List Byte := hex64 (digestBytes S cv0)

end Sys2Proof.Machine
end

