-- ==== Sys2Proof/Machine/Dispatch.lean ====
section
/-! DEFINITION. One arm for each command of 30_encoding R62. -/

namespace Sys2Proof.Machine

/-- Run a decoded command: the last line of 60_exceptions R189, with each command's own phase check before it. -/
def exec (i : Instr) (s : State) : Host.Outcome State Fault Refusal :=
  match i with
  | .rst => Sys2Proof.Machine.execRst s
  | .rds => Sys2Proof.Machine.execRds s
  | .seed v => Sys2Proof.Machine.execSeed v s
  | .wrb b => Sys2Proof.Machine.execWrb b s
  | .wrk blk => Sys2Proof.Machine.execWrk blk s
  | .fin => Sys2Proof.Machine.execFin s
  | .padq => Sys2Proof.Machine.execPadq s
  | .rdd => Sys2Proof.Machine.execRdd s
  | .rdx => Sys2Proof.Machine.execRdx s

end Sys2Proof.Machine
end

