-- ==== Sys2Proof/Machine/Port.lean ====
section
/-! DEFINITION. What the core takes from its port next (30_encoding R60, R71; 70_reset R210). -/

namespace Sys2Proof.Machine

/-- What a step finds on the port. -/
inductive Taken where
  /-- Nothing the core can act on: no input, or a transaction whose end is not marked (R71). -/
  | waiting
  /-- The hardware reset input. -/
  | reset (rest : List PortInput)
  /-- A whole transaction. -/
  | command (t : List Byte) (rest : List PortInput)
  deriving DecidableEq, Repr

/-- Take the next input. A reset abandons an unfinished transaction, with no response and no effect (R210); nothing else
ends the wait for one (R71; assumption 6). -/
def takeInput : List PortInput → Taken
  | [] => .waiting
  | .transaction t :: rest => .command t rest
  | .reset :: rest => .reset rest
  | .unfinished _ :: .reset :: rest => .reset rest
  | .unfinished _ :: _ => .waiting

/-- Leave `rest` on the port. -/
def State.setPort (rest : List PortInput) (s : State) : State := { s with port := rest }

/-- Put a transaction where the next step takes it. -/
def State.pushTransaction (t : List Byte) (s : State) : State := { s with port := .transaction t :: s.port }

end Sys2Proof.Machine
end

