-- ==== Sys2Proof/Machine/Step.lean ====
section
/-! DEFINITION. One step: one input from the port, handled by the procedure of 60_exceptions R189. -/

namespace Sys2Proof.Machine

/-- One step of the machine. With nothing to act on it waits, which changes nothing (assumption 6). -/
def step (s : State) : Host.Outcome State Fault Refusal :=
  match takeInput s.port with
  | .waiting => .next s
  | .reset rest => .next (s.setPort rest).hardwareReset
  | .command t rest =>
    match decode t with
    | .illegal => .next ((s.setPort rest).rejectTransaction .illegal)
    | .badLength => .next ((s.setPort rest).rejectTransaction .length)
    | .command i => exec i (s.setPort rest)

/-- `s` with the transaction of a word of the opcode table as its next input (assumptions 11, 14). -/
def State.withFetchWord (s : State) (nbits w : Nat) : State := s.pushTransaction (tableTransaction nbits w)

end Sys2Proof.Machine
end

