-- ==== Sys2Proof/Machine/Assembler.lean ====
section
/-! DEFINITION. The pseudo-commands of 30_encoding R76 and the textual form of R75. The core sees only the commands a
pseudo-command expands to. -/

namespace Sys2Proof.Machine

/-- The pseudo-commands (R76). -/
inductive PseudoCommand where
  /-- `ABSORB`: one WRB per byte. -/
  | absorb (bytes : List Byte)
  /-- `ABSORBK`: one WRK per 64 bytes. -/
  | absorbk (bytes : List Byte)
  /-- `COMPRESS blk, cv`: the source's `compress(block, cv)`. -/
  | compress (blk : List Byte) (cv : U256)
  /-- `PAD m`: the source's `pad(block)`. -/
  | pad (m : List Byte)
  /-- `DIGEST S, cv0`: the source's `digest(byte_stream, initial_cv)`, by the host procedure of 42_driver_commands R160. -/
  | digest (S : List Byte) (cv0 : U256)
  deriving DecidableEq, Repr

/-- `ABSORB` (R76). -/
def absorbCommands (bytes : List Byte) : List Instr := bytes.map .wrb

/-- `ABSORBK` (R76). -/
def absorbkCommands (bytes : List Byte) : List Instr := (blocksOf bytes).map .wrk

/-- The expansion of a pseudo-command (R76). -/
def PseudoCommand.expand : PseudoCommand → List Instr
  | .absorb bytes => absorbCommands bytes
  | .absorbk bytes => absorbkCommands bytes
  | .compress blk cv => [.seed cv, .wrk blk, .fin, .rdd]
  | .pad m => .seed 0 :: (absorbCommands m ++ [.padq])
  | .digest S cv0 =>
    .seed cv0 :: (absorbkCommands (S.take (64 * (S.length / 64))) ++
      (absorbCommands (S.drop (64 * (S.length / 64))) ++ [.fin, .rdx]))

/-- Two hexadecimal digits for each byte, in stream order (R75). -/
def hexText (s : List Byte) : String :=
  String.ofList (s.flatMap fun b =>
    [Char.ofNat (hexChar (b.toNat / 16)).toNat, Char.ofNat (hexChar (b.toNat % 16)).toNat])

/-- One line of the textual form of a command (R75). -/
def asmLine : Instr → String
  | .rst => "RST"
  | .rds => "RDS"
  | .seed v => "SEED 0x" ++ hexText (bytesBe 32 v.toNat)
  | .wrb b => "WRB 0x" ++ hexText [b]
  | .wrk blk => "WRK " ++ hexText blk
  | .fin => "FIN"
  | .padq => "PADQ"
  | .rdd => "RDD"
  | .rdx => "RDX"

/-- `RAW`, the literal transaction (R75). -/
def rawLine (t : List Byte) : String := "RAW " ++ hexText t

/-- The name of a status (R73). Codes 0x06 to 0xFF are never produced. -/
def statusName (st : Byte) : String :=
  if st = 0x00#8 then "OK"
  else if st = 0x01#8 then "E_ILLEGAL"
  else if st = 0x02#8 then "E_LENGTH"
  else if st = 0x03#8 then "E_PHASE"
  else if st = 0x04#8 then "E_ALIGN"
  else if st = 0x05#8 then "E_FAULTED"
  else ""

/-- A response as R75 writes it: the status name, then the data in hexadecimal, or quoted where RDX was sent. -/
def responseLine (quoted : Bool) : List Byte → String
  | [] => "->"
  | [st] => "-> " ++ statusName st
  | st :: data =>
    "-> " ++ statusName st ++ " " ++
      if quoted then "\"" ++ String.ofList (data.map fun b => Char.ofNat b.toNat) ++ "\"" else hexText data

end Sys2Proof.Machine
end

