-- ==== Sys2Proof/Safety.lean ====
section
/-! DEFINITION. The terms claims are stated in: the invariant of 10_state R32, the phase table of R34, sequences of
commands, the events of one computation (42_driver_commands R162), and when two states cannot be told apart (10_state
R23, 20_memory R51). -/

namespace Sys2Proof.Machine

/-- The state invariants of 10_state R32 (a) to (d), with the canonical form of BUF and what R24 says of the bytes
below CNT. R32 (e) is the width of `cnt`. -/
structure State.Inv (s : State) : Prop where
  /-- R32 (a). -/
  errcClear : s.ph ≠ .fault → s.errc = 0x00#8
  /-- R32 (b). -/
  errcSet : s.ph = .fault → s.errc = 0x01#8 ∨ s.errc = 0x02#8 ∨ s.errc = 0x03#8 ∨ s.errc = 0x04#8
  /-- R32 (c). -/
  idleEmpty : s.ph = .idle → s.cnt = 0
  /-- R32 (d). -/
  doneEmpty : s.ph = .done → s.cnt = 0
  /-- BUF is in its canonical form, and holds offsets below 64 only (20_memory R40). -/
  bufWf : s.buf.wf = true
  /-- The bytes below CNT have been received (R24). -/
  received : ∀ j, j < s.cnt.toNat → (s.buf.read j).isSome = true

/-- A cell of the phase table. -/
inductive TableCell where
  /-- The command is legal and leaves this phase. -/
  | goes (p : Phase)
  | ePhase
  | eFaulted
  deriving DecidableEq, Repr

/-- The phase table (10_state R34), row by row. -/
def phaseTable : Opcode → Phase → TableCell
  | .rst, .idle => .goes .idle
  | .rst, .absorb => .goes .idle
  | .rst, .done => .goes .idle
  | .rst, .fault => .goes .idle
  | .rds, .idle => .goes .idle
  | .rds, .absorb => .goes .absorb
  | .rds, .done => .goes .done
  | .rds, .fault => .goes .fault
  | .seed, .idle => .goes .absorb
  | .seed, .absorb => .goes .absorb
  | .seed, .done => .goes .absorb
  | .seed, .fault => .eFaulted
  | .wrb, .idle => .ePhase
  | .wrb, .absorb => .goes .absorb
  | .wrb, .done => .ePhase
  | .wrb, .fault => .eFaulted
  | .wrk, .idle => .ePhase
  | .wrk, .absorb => .goes .absorb
  | .wrk, .done => .ePhase
  | .wrk, .fault => .eFaulted
  | .fin, .idle => .ePhase
  | .fin, .absorb => .goes .done
  | .fin, .done => .ePhase
  | .fin, .fault => .eFaulted
  | .padq, .idle => .ePhase
  | .padq, .absorb => .goes .absorb
  | .padq, .done => .ePhase
  | .padq, .fault => .eFaulted
  | .rdd, .idle => .ePhase
  | .rdd, .absorb => .ePhase
  | .rdd, .done => .goes .done
  | .rdd, .fault => .eFaulted
  | .rdx, .idle => .ePhase
  | .rdx, .absorb => .ePhase
  | .rdx, .done => .goes .done
  | .rdx, .fault => .eFaulted

/-- A sequence of commands, each run in the state the one before left (20_memory R48), stopping where one stops. -/
def execAll : List Instr → State → Host.Outcome State Fault Refusal
  | [], s => .next s
  | i :: is, s =>
    match exec i s with
    | .next t => execAll is t
    | .fault r => .fault r
    | .refused r => .refused r

/-- The stream bytes a command carries, for WRB and WRK (20_memory R52). -/
def streamBytes : Instr → List Byte
  | .wrb b => [b]
  | .wrk blk => blk
  | .rst => []
  | .rds => []
  | .seed _ => []
  | .fin => []
  | .padq => []
  | .rdd => []
  | .rdx => []

/-- WRB or WRK, with a block of 64 bytes: the commands that carry the stream. -/
def carriesStream : Instr → Bool
  | .wrb _ => true
  | .wrk blk => blk.length == 64
  | .rst => false
  | .rds => false
  | .seed _ => false
  | .fin => false
  | .padq => false
  | .rdd => false
  | .rdx => false

/-- The COMPRESS events of blocks compressed in order, each `cv_in` the `cv_out` before it (42_driver_commands R162). -/
def compressEvents : U256 → List (List Byte) → List Event
  | _, [] => []
  | cv, q :: qs => .compress q cv (compress q cv) :: compressEvents (compress q cv) qs

/-- The events between SEED and FIN of one computation over the stream `S` (R162). -/
def digestEvents (S : List Byte) (cv0 : U256) : List Event :=
  let rest := S.drop (64 * (S.length / 64))
  compressEvents cv0 (blocksOf S) ++
    (if rest = [] then [] else
      .pad rest.length ::
        compressEvents ((blocksOf S).foldl (fun cv q => compress q cv) cv0) (blocksOf (pad rest)))

/-- Two states that no sequence of commands can tell apart: they may differ in what the spec calls unspecified or stale,
that is, in the lanes before SEED or after a fault (10_state R23), in the bytes of BUF that are not below CNT in ABSORB
(20_memory R51), and in the draw of the free values. -/
structure State.Agree (s t : State) : Prop where
  ph : s.ph = t.ph
  cnt : s.cnt = t.cnt
  errc : s.errc = t.errc
  port : s.port = t.port
  responses : s.responses = t.responses
  trace : s.trace = t.trace
  spillPolicy : s.spillPolicy = t.spillPolicy
  lanes : s.ph = .absorb ∨ s.ph = .done → s.cval = t.cval
  bytes : s.ph = .absorb → ∀ j, j < s.cnt.toNat → s.bufByte j = t.bufByte j

/-- The same kind of outcome, with states that agree or the same reason to stop. -/
def outcomesAgree : Host.Outcome State Fault Refusal → Host.Outcome State Fault Refusal → Prop
  | .next s, .next t => s.Agree t
  | .fault a, .fault b => a = b
  | .refused a, .refused b => a = b
  | .next _, .fault _ => False
  | .next _, .refused _ => False
  | .fault _, .next _ => False
  | .fault _, .refused _ => False
  | .refused _, .next _ => False
  | .refused _, .fault _ => False

end Sys2Proof.Machine
end

