-- ==== Sys2Proof/Certificates/Slice0/Obligations.lean ====
section
/-! DEFINITION. The statements for the provers, from the numbered rules of spec/. -/

open Sys2Proof Sys2Proof.Machine

-- ---------------------------------------------------------------- encoding

/-- Decoding the transaction of a well-formed command gives the command back (30_encoding R61 to R66). -/
def Obligations.DecodeUndoesEncode : Prop :=
  ∀ i : Instr, i.wellFormed = true → decode (encode i) = .command i

/-- A transaction that decodes to a command is the one its encoding spells, and the command is well-formed. -/
def Obligations.EncodeUndoesDecode : Prop :=
  ∀ (t : List Byte) (i : Instr), decode t = .command i → encode i = t ∧ i.wellFormed = true

/-- Words written out from the spec's encodings (30_encoding R61, R62) decode to the commands they stand for. -/
def Obligations.SpecWordsDecode : Prop :=
  decode [0x10#8] = .command .rst ∧
  decode [0x11#8] = .command .rds ∧
  decode (0x20#8 :: List.replicate 31 0x00#8 ++ [0x01#8]) = .command (.seed 1) ∧
  decode [0x30#8, 0x41#8] = .command (.wrb 0x41#8) ∧
  decode (0x31#8 :: List.replicate 64 0xff#8) = .command (.wrk (List.replicate 64 0xff#8)) ∧
  decode [0x40#8] = .command .fin ∧
  decode [0x41#8] = .command .padq ∧
  decode [0x50#8] = .command .rdd ∧
  decode [0x51#8] = .command .rdx ∧
  decode [] = .illegal ∧ decode [0x00#8] = .illegal ∧ decode [0xff#8] = .illegal ∧ decode [0x12#8] = .illegal ∧
  decode [0x10#8, 0x00#8] = .badLength ∧ decode [0x30#8] = .badLength

/-- 30_encoding R63: SEED's operand is the big-endian number of bytes 1 to 32, byte 1 its bits 255:248 and byte 32 its
bits 7:0, every payload is accepted, and lane `i` receives the number of bytes 1+8i to 8+8i. -/
def Obligations.SeedOperandIsBigEndian : Prop :=
  ∀ p : List Byte, p.length = 32 → ∃ v : U256,
    decode (0x20#8 :: p) = .command (.seed v) ∧ v.toNat = be p ∧
    (∀ k, k < 32 → p[k]? = some (v.extractLsb' (248 - 8 * k) 8)) ∧
    ∀ s : State, s.ph ≠ .fault → ∃ t, exec (.seed v) s = .next t ∧
      t.cv0.toNat = be (p.take 8) ∧ t.cv1.toNat = be ((p.drop 8).take 8) ∧
      t.cv2.toNat = be ((p.drop 16).take 8) ∧ t.cv3.toNat = be ((p.drop 24).take 8)

/-- 30_encoding R65: WRK's operand is the 64 payload bytes, whatever they are, and part `i` of the block is the
big-endian number of bytes 1+16i to 16+16i of the transaction. -/
def Obligations.WrkOperandIsBlock : Prop :=
  ∀ p : List Byte, p.length = 64 →
    decode (0x31#8 :: p) = .command (.wrk p) ∧
    ∀ i : Fin 4, (part p i).toNat = be (((0x31#8 :: p).drop (1 + 16 * i.val)).take 16)

-- ---------------------------------------------------------------- the step

/-- When the next input is a transaction that decodes to a command, the step takes it from the port and is the command
run in the state that is left; nothing else is added around it. -/
def Obligations.StepRunsDecodedCommand : Prop :=
  ∀ (s : State) (t : List Byte) (rest : List PortInput) (i : Instr),
    s.port = .transaction t :: rest → decode t = .command i →
    i.wellFormed = true ∧ step s = exec i { s with port := rest }

/-- A word of the opcode table put on the port is what the next step runs. The framing of a short word is the model's
(assumption 14). -/
def Obligations.FetchWordIsRunNext : Prop :=
  ∀ (s : State) (nbits w : Nat) (i : Instr),
    decodeTableWord nbits w = some i → step (s.withFetchWord nbits w) = exec i s

/-- 60_exceptions R189, the procedure every transaction is handled by, in its order: already faulted, illegal, bad
length, phase, alignment, run. -/
def Obligations.TransactionProcedure : Prop :=
  ∀ (s u : State) (t : List Byte) (rest : List PortInput),
    s.port = .transaction t :: rest → u = { s with port := rest } →
    (s.ph = .fault → decode t = .command .rst → step s = exec .rst u) ∧
    (s.ph = .fault → decode t = .command .rds → step s = exec .rds u) ∧
    (s.ph = .fault → decode t ≠ .command .rst → decode t ≠ .command .rds →
      step s = .next { u with responses := s.responses ++ [[0x05#8]] }) ∧
    (s.ph ≠ .fault → decode t = .illegal →
      step s = .next { u with ph := .fault, errc := 0x01#8, responses := s.responses ++ [[0x01#8]] }) ∧
    (s.ph ≠ .fault → decode t = .badLength →
      step s = .next { u with ph := .fault, errc := 0x02#8, responses := s.responses ++ [[0x02#8]] }) ∧
    (∀ i, s.ph ≠ .fault → decode t = .command i → phaseTable i.opcode s.ph = .ePhase →
      step s = .next { u with ph := .fault, errc := 0x03#8, responses := s.responses ++ [[0x03#8]] }) ∧
    (∀ blk, s.ph = .absorb → decode t = .command (.wrk blk) → s.cnt ≠ 0 →
      step s = .next { u with ph := .fault, errc := 0x04#8, responses := s.responses ++ [[0x04#8]] }) ∧
    (∀ i, s.ph ≠ .fault → decode t = .command i → phaseTable i.opcode s.ph ≠ .ePhase →
      (∀ blk, i = .wrk blk → s.cnt = 0) → (i = .fin → s.spillPolicy = .twoBlocks ∨ s.cnt.toNat < 56) →
      ∃ v data, step s = .next v ∧ exec i u = .next v ∧ v.responses = s.responses ++ [0x00#8 :: data])

/-- 30_encoding R67 and 60_exceptions R181: the empty transaction, and one whose byte 0 is none of the nine opcodes,
raises E_ILLEGAL whatever follows; in FAULT it is answered E_FAULTED. -/
def Obligations.IllegalTransactionRaises : Prop :=
  ∀ (s : State) (t : List Byte) (rest : List PortInput),
    s.port = .transaction t :: rest →
    (t = [] ∨ ∃ b p, t = b :: p ∧
      b ∉ [0x10#8, 0x11#8, 0x20#8, 0x30#8, 0x31#8, 0x40#8, 0x41#8, 0x50#8, 0x51#8]) →
    (s.ph ≠ .fault → step s = .next
      { s with port := rest, ph := .fault, errc := 0x01#8, responses := s.responses ++ [[0x01#8]] }) ∧
    (s.ph = .fault → step s = .next { s with port := rest, responses := s.responses ++ [[0x05#8]] })

/-- 30_encoding R68 and 60_exceptions R182: a defined opcode in a transaction of another length than 1, 2, 33 or 65 as
its format asks raises E_LENGTH, before the phase is looked at; in FAULT it is answered E_FAULTED. -/
def Obligations.WrongLengthRaises : Prop :=
  ∀ (s : State) (b : Byte) (p : List Byte) (rest : List PortInput),
    s.port = .transaction (b :: p) :: rest →
    (b ∈ [0x10#8, 0x11#8, 0x40#8, 0x41#8, 0x50#8, 0x51#8] ∧ p.length ≠ 0 ∨
      b = 0x30#8 ∧ p.length ≠ 1 ∨ b = 0x20#8 ∧ p.length ≠ 32 ∨ b = 0x31#8 ∧ p.length ≠ 64) →
    (s.ph ≠ .fault → step s = .next
      { s with port := rest, ph := .fault, errc := 0x02#8, responses := s.responses ++ [[0x02#8]] }) ∧
    (s.ph = .fault → step s = .next { s with port := rest, responses := s.responses ++ [[0x05#8]] })

/-- 60_exceptions R185: in FAULT every transaction but exactly the byte 0x10 and exactly the byte 0x11 is answered
E_FAULTED and changes nothing. -/
def Obligations.FaultedAnswersOnly : Prop :=
  ∀ (s : State) (t : List Byte) (rest : List PortInput),
    s.ph = .fault → s.port = .transaction t :: rest → t ≠ [0x10#8] → t ≠ [0x11#8] →
    step s = .next { s with port := rest, responses := s.responses ++ [[0x05#8]] }

/-- 60_exceptions R186, R190: a transaction that takes the core from another phase to FAULT writes PH and ERRC, answers
the code, and leaves the lanes, BUF, CNT and the trace as they were. -/
def Obligations.FaultEntryIsPrecise : Prop :=
  ∀ (s t : State), s.ph ≠ .fault → step s = .next t → t.ph = .fault →
    ∃ c rest, (c = 0x01#8 ∨ c = 0x02#8 ∨ c = 0x03#8 ∨ c = 0x04#8) ∧
      t = { s with port := rest, ph := .fault, errc := c, responses := s.responses ++ [[c]] }

/-- 60_exceptions R191: from FAULT the one byte 0x10 and the reset input lead to IDLE with ERRC = 0 and CNT = 0. On every
other input PH, ERRC, CNT, BUF and the lanes are kept (R185), so that no fault nests (R192, which the spec marks as
derived from R185). That step answers a next state with no input, or with an unfinished one, is the model's: a wait is a
step that changes nothing (assumption 6). -/
def Obligations.FaultIsSticky : Prop :=
  ∀ s : State, s.ph = .fault → ∃ t, step s = .next t ∧
    ((∃ rest, s.port = .transaction [0x10#8] :: rest ∨ s.port = .reset :: rest ∨
        ∃ p, s.port = .unfinished p :: .reset :: rest) →
      t.ph = .idle ∧ t.errc = 0x00#8 ∧ t.cnt = 0) ∧
    ((∀ rest, s.port ≠ .transaction [0x10#8] :: rest ∧ s.port ≠ .reset :: rest ∧
        ∀ p, s.port ≠ .unfinished p :: .reset :: rest) →
      t.ph = .fault ∧ t.errc = s.errc ∧ t.cnt = s.cnt ∧ t.buf = s.buf ∧ t.cval = s.cval ∧ t.trace = s.trace)

/-- A core with nothing to act on waits: an empty port, and a transaction whose end is not marked, change nothing and
get no response, until the reset input. That a wait is a step which changes nothing is the model's choice
(assumption 6). -/
def Obligations.WaitingChangesNothing : Prop :=
  ∀ (s : State), (s.port = [] ∨ (∃ p, s.port = [.unfinished p]) ∨
      ∃ p x rest, s.port = .unfinished p :: x :: rest ∧ x ≠ .reset) → step s = .next s

/-- 70_reset R211: the reset state, right after power-on and after the reset input at any time. In the middle of a
transaction the reset input abandons it: it gets no response (R210). That the responses of before are kept is the
model's choice (assumption 7). -/
def Obligations.ResetState : Prop :=
  (State.reset.ph = .idle ∧ State.reset.cnt = 0 ∧ State.reset.errc = 0x00#8 ∧ State.reset.trace = []) ∧
  (∀ (s : State) (rest : List PortInput),
    (s.port = .reset :: rest ∨ ∃ p, s.port = .unfinished p :: .reset :: rest) →
    ∃ t, step s = .next t ∧ t.ph = .idle ∧ t.cnt = 0 ∧ t.errc = 0x00#8 ∧ t.trace = [] ∧ t.responses = s.responses ∧
      t.port = rest ∧ t.spillPolicy = s.spillPolicy)

-- ---------------------------------------------------------------- the commands

/-- 43_control_commands R170, RST in every phase. The lanes and BUF become unspecified, so nothing is said of them. A
malformed RST resets nothing. -/
def Obligations.RstResets : Prop :=
  decode [0x10#8] = .command .rst ∧
  (∀ s : State, ∃ t, exec .rst s = .next t ∧ t.cnt = 0 ∧ t.ph = .idle ∧ t.errc = 0x00#8 ∧
    t.responses = s.responses ++ [[0x00#8]] ∧ t.trace = s.trace ∧ t.port = s.port ∧ t.spillPolicy = s.spillPolicy) ∧
  (∀ (s : State) (p : List Byte) (rest : List PortInput), p ≠ [] → s.port = .transaction (0x10#8 :: p) :: rest →
    (s.ph ≠ .fault → step s = .next
      { s with port := rest, ph := .fault, errc := 0x02#8, responses := s.responses ++ [[0x02#8]] }) ∧
    (s.ph = .fault → step s = .next { s with port := rest, responses := s.responses ++ [[0x05#8]] }))

/-- 43_control_commands R171, 10_state R28: RDS answers OK and the two bytes of STATUS = PH * 2^14 + CNT * 2^8 + ERRC in
every phase, and changes nothing. A malformed RDS is a length error. -/
def Obligations.RdsReadsStatus : Prop :=
  decode [0x11#8] = .command .rds ∧
  (∀ s : State, ∃ ph : Nat,
    (s.ph = .idle ∧ ph = 0 ∨ s.ph = .absorb ∧ ph = 1 ∨ s.ph = .done ∧ ph = 2 ∨ s.ph = .fault ∧ ph = 3) ∧
    s.status.toNat = ph * 2 ^ 14 + s.cnt.toNat * 2 ^ 8 + s.errc.toNat ∧
    exec .rds s = .next { s with responses := s.responses ++
      [[0x00#8, BitVec.ofNat 8 (ph * 64 + s.cnt.toNat), s.errc]] }) ∧
  (∀ (s : State) (p : List Byte) (rest : List PortInput), p ≠ [] → s.port = .transaction (0x11#8 :: p) :: rest →
    (s.ph ≠ .fault → step s = .next
      { s with port := rest, ph := .fault, errc := 0x02#8, responses := s.responses ++ [[0x02#8]] }) ∧
    (s.ph = .fault → step s = .next { s with port := rest, responses := s.responses ++ [[0x05#8]] }))

/-- 42_driver_commands R140: SEED in every phase. -/
def Obligations.SeedLoads : Prop :=
  ∀ (v : U256) (s : State),
    decode (0x20#8 :: bytesBe 32 v.toNat) = .command (.seed v) ∧
    (s.ph ≠ .fault → exec (.seed v) s = .next { s with
      cv0 := v.extractLsb' 192 64, cv1 := v.extractLsb' 128 64, cv2 := v.extractLsb' 64 64, cv3 := v.extractLsb' 0 64,
      cnt := 0, ph := .absorb, responses := s.responses ++ [[0x00#8]] }) ∧
    (s.ph = .fault → exec (.seed v) s = .next { s with responses := s.responses ++ [[0x05#8]] })

/-- 42_driver_commands R141: WRB in every phase and at every count. Below 63 it stores and counts; at 63 it compresses
the block it completes. Every byte of BUF but the one stored reads as before. -/
def Obligations.WrbAppends : Prop :=
  ∀ (b : Byte) (s : State),
    decode [0x30#8, b] = .command (.wrb b) ∧
    (s.ph = .absorb → s.cnt.toNat < 63 → exec (.wrb b) s = .next { s with
      buf := s.buf.write s.cnt.toNat b, cnt := BitVec.ofNat 6 (s.cnt.toNat + 1),
      responses := s.responses ++ [[0x00#8]] }) ∧
    (s.ph = .absorb → s.cnt.toNat = 63 → ∃ blk new,
      blk = s.bufBytes 63 ++ [b] ∧ new = compress blk s.cval ∧
      exec (.wrb b) s = .next { s with
        buf := s.buf.write 63 b, cnt := 0,
        cv0 := new.extractLsb' 192 64, cv1 := new.extractLsb' 128 64, cv2 := new.extractLsb' 64 64,
        cv3 := new.extractLsb' 0 64,
        trace := s.trace ++ [.compress blk s.cval new], responses := s.responses ++ [[0x00#8]] }) ∧
    (∀ a, (s.buf.write s.cnt.toNat b).read a = if a = s.cnt.toNat then some b else s.buf.read a) ∧
    (s.ph = .idle ∨ s.ph = .done → exec (.wrb b) s = .next { s with
      ph := .fault, errc := 0x03#8, responses := s.responses ++ [[0x03#8]] }) ∧
    (s.ph = .fault → exec (.wrb b) s = .next { s with responses := s.responses ++ [[0x05#8]] })

/-- 41_compressor R135: WRK in every phase and at every count. -/
def Obligations.WrkCompresses : Prop :=
  ∀ (blk : List Byte) (s : State), blk.length = 64 →
    decode (0x31#8 :: blk) = .command (.wrk blk) ∧
    (s.ph = .absorb → s.cnt = 0 → ∃ new, new = compress blk s.cval ∧
      exec (.wrk blk) s = .next { s with
        cv0 := new.extractLsb' 192 64, cv1 := new.extractLsb' 128 64, cv2 := new.extractLsb' 64 64,
        cv3 := new.extractLsb' 0 64,
        trace := s.trace ++ [.compress blk s.cval new], responses := s.responses ++ [[0x00#8]] }) ∧
    (s.ph = .absorb → s.cnt ≠ 0 → exec (.wrk blk) s = .next { s with
      ph := .fault, errc := 0x04#8, responses := s.responses ++ [[0x04#8]] }) ∧
    (s.ph = .idle ∨ s.ph = .done → exec (.wrk blk) s = .next { s with
      ph := .fault, errc := 0x03#8, responses := s.responses ++ [[0x03#8]] }) ∧
    (s.ph = .fault → exec (.wrk blk) s = .next { s with responses := s.responses ++ [[0x05#8]] })

/-- 60_exceptions R184: E_ALIGN is raised by WRK in ABSORB with CNT not 0, and by no other command. -/
def Obligations.AlignErrorOnlyFromWrk : Prop :=
  ∀ (i : Instr) (s : State), i.wellFormed = true →
    (exec i s = .next { s with ph := .fault, errc := 0x04#8, responses := s.responses ++ [[0x04#8]] } ↔
      (∃ blk, i = .wrk blk) ∧ s.ph = .absorb ∧ s.cnt ≠ 0)

/-- 42_driver_commands R143 under SPILL_POLICY = TwoBlocks: FIN in every phase and at every count. -/
def Obligations.FinFinishes : Prop :=
  ∀ (s : State) (p : List Byte) (new : U256),
    p = pad (s.bufBytes s.cnt.toNat) →
    new = (if s.cnt = 0 then s.cval else (blocksOf p).foldl (fun cv q => compress q cv) s.cval) →
    decode [0x40#8] = .command .fin ∧
    (s.ph = .absorb → s.spillPolicy = .twoBlocks → exec .fin s = .next { s with
      cv0 := new.extractLsb' 192 64, cv1 := new.extractLsb' 128 64, cv2 := new.extractLsb' 64 64,
      cv3 := new.extractLsb' 0 64, cnt := 0, ph := .done,
      trace := s.trace ++
        (if s.cnt = 0 then [] else .pad s.cnt.toNat :: compressEvents s.cval (blocksOf p)),
      responses := s.responses ++ [[0x00#8]] }) ∧
    (s.ph = .idle ∨ s.ph = .done → exec .fin s = .next { s with
      ph := .fault, errc := 0x03#8, responses := s.responses ++ [[0x03#8]] }) ∧
    (s.ph = .fault → exec .fin s = .next { s with responses := s.responses ++ [[0x05#8]] })

/-- 42_driver_commands R144: FIN with CNT = 0 pads and compresses nothing, under either policy. The digest of the empty
stream is the seed. -/
def Obligations.FinOnBoundaryOnlyEnds : Prop :=
  (∀ s : State, s.ph = .absorb → s.cnt = 0 →
    exec .fin s = .next { s with ph := .done, responses := s.responses ++ [[0x00#8]] }) ∧
  (∀ (s : State) (v : U256), s.ph ≠ .fault →
    ∃ t, execAll [.seed v, .fin] s = .next t ∧ t.ph = .done ∧ t.cval = v ∧ t.trace = s.trace)

/-- 42_driver_commands R145: FIN with 1 <= CNT <= 55 does one padding and one compression, of the block written out
here, under either policy. -/
def Obligations.FinOneBlock : Prop :=
  ∀ (s : State) (r : Nat) (blk : List Byte),
    r = s.cnt.toNat → s.ph = .absorb → 1 ≤ r → r ≤ 55 →
    blk = s.bufBytes r ++ [0x80#8] ++ List.replicate (55 - r) 0x00#8 ++ bytesBe 8 (8 * r) →
    blk.length = 64 ∧ ∃ t, exec .fin s = .next t ∧
      t.cval = compress blk s.cval ∧ t.ph = .done ∧ t.cnt = 0 ∧ t.errc = s.errc ∧ t.buf = s.buf ∧
      t.trace = s.trace ++ [.pad r, .compress blk s.cval (compress blk s.cval)] ∧
      t.responses = s.responses ++ [[0x00#8]] ∧ t.port = s.port ∧ t.spillPolicy = s.spillPolicy

/-- 42_driver_commands R146: FIN with 56 <= CNT <= 63 compresses the two blocks written out here, in order, under
TwoBlocks, and has no meaning under Refuse. -/
def Obligations.FinSpillsTwoBlocks : Prop :=
  ∀ (s : State) (r : Nat) (first second : List Byte) (mid : U256),
    r = s.cnt.toNat → s.ph = .absorb → 56 ≤ r →
    first = s.bufBytes r ++ [0x80#8] ++ List.replicate (63 - r) 0x00#8 →
    second = List.replicate 56 0x00#8 ++ bytesBe 8 (8 * r) →
    mid = compress first s.cval →
    first.length = 64 ∧ second.length = 64 ∧
    (s.spillPolicy = .twoBlocks → ∃ t, exec .fin s = .next t ∧
      t.cval = compress second mid ∧ t.ph = .done ∧ t.cnt = 0 ∧ t.errc = s.errc ∧ t.buf = s.buf ∧
      t.trace = s.trace ++ [.pad r, .compress first s.cval mid, .compress second mid (compress second mid)] ∧
      t.responses = s.responses ++ [[0x00#8]] ∧ t.port = s.port ∧ t.spillPolicy = s.spillPolicy) ∧
    (s.spillPolicy = .refuse → exec .fin s = .refused .spillRefused)

/-- 40_padder R108: PADQ in every phase: the padding of the buffered bytes, in the form of R102, and no change. -/
def Obligations.PadqAnswersPadding : Prop :=
  ∀ (s : State) (r nz : Nat), r = s.cnt.toNat → nz = (if r ≤ 55 then 55 - r else 119 - r) →
    decode [0x41#8] = .command .padq ∧
    (s.ph = .absorb → exec .padq s = .next { s with responses := s.responses ++
      [0x00#8 :: (s.bufBytes r ++ [0x80#8] ++ List.replicate nz 0x00#8 ++ bytesBe 8 (8 * r))] }) ∧
    (s.ph = .idle ∨ s.ph = .done → exec .padq s = .next { s with
      ph := .fault, errc := 0x03#8, responses := s.responses ++ [[0x03#8]] }) ∧
    (s.ph = .fault → exec .padq s = .next { s with responses := s.responses ++ [[0x05#8]] })

/-- 42_driver_commands R150: RDD in every phase: in DONE the 32 bytes of the lanes, CV[0] first, each big-endian. -/
def Obligations.RddReadsDigest : Prop :=
  ∀ s : State,
    decode [0x50#8] = .command .rdd ∧
    (s.ph = .done → exec .rdd s = .next { s with responses := s.responses ++
      [0x00#8 :: (bytesBe 8 s.cv0.toNat ++ bytesBe 8 s.cv1.toNat ++ bytesBe 8 s.cv2.toNat ++ bytesBe 8 s.cv3.toNat)] }) ∧
    (s.ph = .idle ∨ s.ph = .absorb → exec .rdd s = .next { s with
      ph := .fault, errc := 0x03#8, responses := s.responses ++ [[0x03#8]] }) ∧
    (s.ph = .fault → exec .rdd s = .next { s with responses := s.responses ++ [[0x05#8]] })

/-- 42_driver_commands R151: RDX in every phase: in DONE the 64 character codes of the digest, `hex64` of R156. That the
characters are ASCII codes is presumed (assumption 15). -/
def Obligations.RdxReadsHexDigest : Prop :=
  ∀ s : State,
    decode [0x51#8] = .command .rdx ∧
    (s.ph = .done → exec .rdx s = .next { s with responses := s.responses ++ [0x00#8 :: hex64 s.cval] }) ∧
    (s.ph = .idle ∨ s.ph = .absorb → exec .rdx s = .next { s with
      ph := .fault, errc := 0x03#8, responses := s.responses ++ [[0x03#8]] }) ∧
    (s.ph = .fault → exec .rdx s = .next { s with responses := s.responses ++ [[0x05#8]] })

/-- 42_driver_commands R156: `hex64` is 64 characters; character `k` is the digit of bits 255-4k to 252-4k, `0`..`9` as
0x30 on and `a`..`f` as 0x61 on; and the characters spell the 32 bytes two by two, high nibble first. That the
characters are ASCII codes is presumed (assumption 15). -/
def Obligations.HexSpellsBytes : Prop :=
  (∀ v : U256, (hex64 v).length = 64) ∧
  (∀ (v : U256) (k : Nat), k < 64 → ∀ d, d = (v.extractLsb' (252 - 4 * k) 4).toNat →
    (d ≤ 9 → (hex64 v)[k]? = some (BitVec.ofNat 8 (0x30 + d))) ∧
    (10 ≤ d → (hex64 v)[k]? = some (BitVec.ofNat 8 (0x61 + (d - 10))))) ∧
  (∀ v : U256, hex64 v = (bytesBe 32 v.toNat).flatMap fun b => [hexChar (b.toNat / 16), hexChar (b.toNat % 16)])

/-- 10_state R34: every cell of the phase table, for every command with an operand it can have. -/
def Obligations.PhaseTableHolds : Prop :=
  ∀ (i : Instr) (s : State), i.wellFormed = true →
    (∀ p, phaseTable i.opcode s.ph = .goes p → (∀ blk, i = .wrk blk → s.cnt = 0) →
      (i = .fin → s.spillPolicy = .twoBlocks ∨ s.cnt.toNat < 56) →
      ∃ t data, exec i s = .next t ∧ t.ph = p ∧ t.responses = s.responses ++ [0x00#8 :: data]) ∧
    (∀ blk, i = .wrk blk → s.ph = .absorb → s.cnt ≠ 0 → exec i s = .next { s with
      ph := .fault, errc := 0x04#8, responses := s.responses ++ [[0x04#8]] }) ∧
    (phaseTable i.opcode s.ph = .ePhase → exec i s = .next { s with
      ph := .fault, errc := 0x03#8, responses := s.responses ++ [[0x03#8]] }) ∧
    (phaseTable i.opcode s.ph = .eFaulted → exec i s = .next { s with
      responses := s.responses ++ [[0x05#8]] })

-- ---------------------------------------------------------------- frames over all commands

/-- 10_state R22: the commands that change the chaining value. RST leaves it unspecified. -/
def Obligations.LanesChangedBy : Prop :=
  ∀ (i : Instr) (s t : State), exec i s = .next t → t.cval ≠ s.cval →
    i = .rst ∨ (∃ v, i = .seed v) ∨ (∃ blk, i = .wrk blk) ∨ ((∃ b, i = .wrb b) ∧ s.cnt.toNat = 63) ∨
      (i = .fin ∧ s.cnt ≠ 0)

/-- 10_state R24: a command other than WRB and RST leaves every byte of BUF as it was, and WRB all but the byte at
offset CNT. RST leaves BUF unspecified. -/
def Obligations.BufChangedBy : Prop :=
  ∀ (i : Instr) (s t : State), exec i s = .next t → i ≠ .rst →
    ∀ a, ((∃ b, i = .wrb b) → a ≠ s.cnt.toNat) → t.buf.read a = s.buf.read a

/-- 10_state R25: what a command that is executed does to CNT: SEED, FIN and RST clear it, WRB counts modulo 64, WRK
finds it 0 and leaves it 0, and the others keep it. -/
def Obligations.CntChangedBy : Prop :=
  ∀ (i : Instr) (s t : State) (data : List Byte), exec i s = .next t →
    t.responses = s.responses ++ [0x00#8 :: data] →
    ((i = .rst ∨ (∃ v, i = .seed v) ∨ i = .fin) → t.cnt = 0) ∧
    ((∃ b, i = .wrb b) → t.cnt.toNat = (s.cnt.toNat + 1) % 64) ∧
    ((∃ blk, i = .wrk blk) → s.cnt = 0 ∧ t.cnt = 0) ∧
    ((i = .rds ∨ i = .padq ∨ i = .rdd ∨ i = .rdx) → t.cnt = s.cnt)

/-- 10_state R26: PH is written by SEED (to ABSORB), FIN (to DONE), RST (to IDLE) and fault entry (to FAULT), and by
nothing else. -/
def Obligations.PhaseChangedBy : Prop :=
  ∀ (i : Instr) (s t : State), exec i s = .next t → t.ph ≠ s.ph →
    ((∃ v, i = .seed v) ∧ t.ph = .absorb) ∨ (i = .fin ∧ t.ph = .done) ∨ (i = .rst ∧ t.ph = .idle) ∨
      (t.ph = .fault ∧ ∃ c, c ≠ 0x00#8 ∧ t.errc = c ∧ t.responses = s.responses ++ [[c]])

/-- 10_state R33, C6 of 90_conflicts: a command only appends to the event trace, RST does not clear it, and only WRB, WRK
and FIN append. -/
def Obligations.TraceOnlyGrows : Prop :=
  ∀ (i : Instr) (s t : State), exec i s = .next t →
    ∃ seg, t.trace = s.trace ++ seg ∧
      (seg ≠ [] → (∃ b, i = .wrb b) ∨ (∃ blk, i = .wrk blk) ∨ i = .fin)

/-- 30_encoding R72: a transaction gets exactly one response: the status, then data, which is empty unless the status is
OK and the command is one of the four that return data, and which for those is what the table says, with its length. That
the characters RDX answers are ASCII codes is presumed (assumption 15). -/
def Obligations.OneResponseEach : Prop :=
  ∀ (s v : State) (t : List Byte) (rest : List PortInput), s.port = .transaction t :: rest → step s = .next v →
    ∃ st data, v.responses = s.responses ++ [st :: data] ∧ st.toNat ≤ 5 ∧
      (st ≠ 0x00#8 → data = []) ∧
      (st = 0x00#8 → ∃ i, decode t = .command i ∧
        ((i = .rst ∨ (∃ v, i = .seed v) ∨ (∃ b, i = .wrb b) ∨ (∃ blk, i = .wrk blk) ∨ i = .fin) → data = []) ∧
        (i = .rds → data = bytesBe 2 s.status.toNat ∧ data.length = 2) ∧
        (i = .rdd → data = bytesBe 32 s.cval.toNat ∧ data.length = 32) ∧
        (i = .rdx → data = hex64 s.cval ∧ data.length = 64) ∧
        (i = .padq → data = pad (s.bufBytes s.cnt.toNat) ∧
          data.length = if s.cnt.toNat ≤ 55 then 64 else 128))

/-- 20_memory R46: RDS, PADQ, RDD and RDX where they are legal change nothing but the list of responses, and answer the
same when repeated. -/
def Obligations.ReadsAreIdempotent : Prop :=
  ∀ (i : Instr) (s : State), i = .rds ∨ (i = .padq ∧ s.ph = .absorb) ∨ ((i = .rdd ∨ i = .rdx) ∧ s.ph = .done) →
    ∃ r, exec i s = .next { s with responses := s.responses ++ [r] } ∧
      exec i { s with responses := s.responses ++ [r] } = .next { s with responses := s.responses ++ [r, r] }

/-- The step never faults, and it refuses only what 00_scope R7 asks it to: FIN with 56 <= CNT under Refuse. -/
def Obligations.StepStopsOnlyOnRefusedSpill : Prop :=
  ∀ s : State, (∀ r, step s ≠ .fault r) ∧
    (∀ r, step s = .refused r → r = .spillRefused ∧ s.spillPolicy = .refuse ∧ s.ph = .absorb ∧ 56 ≤ s.cnt.toNat ∧
      ∃ rest, s.port = .transaction [0x40#8] :: rest)

/-- A term of WRK whose block is not 64 bytes is no command (41_compressor R133); the model stops on it by name where a
command would run (assumption 10). -/
def Obligations.BadBlockStops : Prop :=
  ∀ (blk : List Byte) (s : State), s.ph = .absorb → s.cnt = 0 → blk.length ≠ 64 →
    exec (.wrk blk) s = .fault .invariantViolation

-- ---------------------------------------------------------------- invariants and what cannot be observed

/-- 10_state R32 (a) to (e), with the canonical form of BUF and what R24 says of the bytes below CNT, kept by every
step. -/
def Obligations.StepKeepsInvariant : Prop :=
  ∀ s t : State, s.Inv → step s = .next t → t.Inv

/-- The invariant of 10_state R32 holds at reset. -/
def Obligations.ResetMeetsInvariant : Prop := State.reset.Inv

/-- 10_state R23, 20_memory R51: a chaining value before SEED and a stale byte of BUF are never read. Steps of two states
that differ only there (and in the model's draw of the free values) answer the same and again differ only there. -/
def Obligations.UnspecifiedNeverObserved : Prop :=
  ∀ s t : State, s.Agree t → outcomesAgree (step s) (step t)

-- ---------------------------------------------------------------- the padder

/-- 40_padder R102 against R100: the byte form of `pad` is the bit-level procedure on the whole domain. The spec marks
R102 as derived from R100 and R101. -/
def Obligations.PadBytesEqualsPadBits : Prop :=
  ∀ (m : List Byte) (nz : Nat), m.length ≤ 63 →
    nz = (if m.length ≤ 55 then 55 - m.length else 119 - m.length) →
    padByBits m = m ++ [0x80#8] ++ List.replicate nz 0x00#8 ++ bytesBe 8 (8 * m.length) ∧ pad m = padByBits m

/-- 40_padder R101: step 3 of the procedure appends (447 - 8r) mod 512 zero bits, at least 7 of them, and never appends
one too many. The spec marks R101 as derived from R100. -/
def Obligations.PadZeroBitCount : Prop :=
  ∀ m : List Byte, m.length ≤ 63 → ∃ z : Nat,
    padZeros 512 (bits m ++ [true]) = bits m ++ [true] ++ List.replicate z false ∧
    (z : Int) = (447 - 8 * (m.length : Int)) % 512 ∧ z % 8 = 7 ∧
    (m.length ≤ 55 → z = 447 - 8 * m.length ∧ 8 * m.length + 1 + z + 64 = 512) ∧
    (56 ≤ m.length → z = 959 - 8 * m.length ∧ 8 * m.length + 1 + z + 64 = 1024) ∧
    (8 * m.length + 1 + z + 64) % 512 = 0 ∧ (∀ y, y < z → (8 * m.length + 1 + y + 64) % 512 ≠ 0)

/-- 40_padder R103: one block for up to 55 bytes, two for 56 to 63. The spec marks R103 as derived from R101. -/
def Obligations.PadLength : Prop :=
  ∀ m : List Byte, (m.length ≤ 55 → (pad m).length = 64) ∧ (56 ≤ m.length → m.length ≤ 63 → (pad m).length = 128)

/-- 40_padder R107: the five properties of `pad`. The spec marks R107 as derived from R102. -/
def Obligations.PadRoundTrip : Prop :=
  (∀ m : List Byte, m.length ≤ 63 →
    (∃ k, 0 < k ∧ 8 * (pad m).length = k * 512) ∧
    be ((pad m).drop ((pad m).length - 8)) = 8 * m.length ∧
    (pad m).take m.length = m ∧ (pad m)[m.length]? = some 0x80#8) ∧
  (∀ m m' : List Byte, m.length ≤ 63 → m'.length ≤ 63 → pad m = pad m' → m = m')

-- ---------------------------------------------------------------- the compressor

/-- 10_state R21: CVAL and the lanes are two views of the same 256 bits. -/
def Obligations.ChainingValueIsItsLanes : Prop :=
  ∀ s : State,
    s.cval.toNat = s.cv0.toNat * 2 ^ 192 + s.cv1.toNat * 2 ^ 128 + s.cv2.toNat * 2 ^ 64 + s.cv3.toNat ∧
    s.cv0 = s.cval.extractLsb' 192 64 ∧ s.cv1 = s.cval.extractLsb' 128 64 ∧ s.cv2 = s.cval.extractLsb' 64 64 ∧
    s.cv3 = s.cval.extractLsb' 0 64

/-- 41_compressor R120 (with R121 to R129), on natural numbers with an explicit modulus after every shift, addition and
product: the number of every lane of the new chaining value. -/
def Obligations.CompressInNaturals : Prop :=
  ∀ (blk : List Byte) (cv : U256), blk.length = 64 →
    ∀ (p c n : Nat → Nat),
      (∀ i, p i = be ((blk.drop (16 * i)).take 16)) →
      (∀ i, c i = cv.toNat / 2 ^ (192 - 64 * i) % 2 ^ 64) →
      (∀ i, n i =
        let r := (p i <<< 3 ||| p i >>> 125) % 2 ^ 128
        let mixedLower := (r % 2 ^ 64) ^^^ c i
        let mixedUpper := (r / 2 ^ 64 + c ((i + 1) % 4)) % 2 ^ 64
        (mixedLower * mixedLower % 2 ^ 64) ^^^ mixedUpper) →
      (compress blk cv).toNat = n 0 * 2 ^ 192 + n 1 * 2 ^ 128 + n 2 * 2 ^ 64 + n 3

/-- 41_compressor R122: bit `j` becomes bit `(j + k) mod 128`, and a rotation by 3 is undone by one by 125. -/
def Obligations.RotationRoundTrip : Prop :=
  (∀ (x : U128) (k : Nat), 0 < k → k < 128 →
    (rotl128 x k).toNat = (x.toNat <<< k ||| x.toNat >>> (128 - k)) % 2 ^ 128 ∧
    ∀ j, j < 128 → (rotl128 x k).getLsbD ((j + k) % 128) = x.getLsbD j) ∧
  ∀ x : U128, rotl128 (rotl128 x 3) 125 = x

/-- 41_compressor R124: the two halves of the rotated part in terms of the unrotated one. The spec marks the second
sentence of R124 as derived from R122. -/
def Obligations.RotatedHalves : Prop :=
  ∀ x : U128,
    ((rotl128 x 3).extractLsb' 64 64).toNat = (rotl128 x 3).toNat >>> 64 ∧
    ((rotl128 x 3).extractLsb' 0 64).toNat = (rotl128 x 3).toNat % 2 ^ 64 ∧
    (rotl128 x 3).extractLsb' 64 64 = x.extractLsb' 61 64 ∧
    (rotl128 x 3).extractLsb' 0 64 = x.extractLsb' 0 61 ++ x.extractLsb' 125 3

/-- 41_compressor R136 (c), (d): the zero block with chaining value 0 gives 0, and `compress` is not injective in the
block. -/
def Obligations.CompressCollides : Prop :=
  compress (List.replicate 64 0x00#8) 0 = 0 ∧
  ∃ q q' : List Byte, q.length = 64 ∧ q'.length = 64 ∧ q ≠ q' ∧ compress q 0 = compress q' 0

/-- 20_memory R43: a block as one big-endian number and its parts, where its byte `j` stands, and where the padder's
length field lands. The spec marks R43 as derived from R41 and R42. -/
def Obligations.BlockIsItsParts : Prop :=
  (∀ blk : List Byte, blk.length = 64 →
    be blk = (part blk 0).toNat * 2 ^ 384 + (part blk 1).toNat * 2 ^ 256 + (part blk 2).toNat * 2 ^ 128 +
      (part blk 3).toNat ∧
    ∀ (i : Fin 4) (j : Nat), j < 64 → j / 16 = i.val →
      blk[j]? = some ((part blk i).extractLsb' (120 - 8 * (j % 16)) 8)) ∧
  (∀ m : List Byte, m.length ≤ 63 → ∃ q, (blocksOf (pad m)).getLast? = some q ∧
    ((part q 3).extractLsb' 0 64).toNat = 8 * m.length)

/-- 20_memory R42: regrouping the bits of a byte sequence gives it back, and the bit sequence is the big-endian number
written most significant bit first. -/
def Obligations.BitsAreBytes : Prop :=
  ∀ s : List Byte,
    (∀ (k j : Nat) (h : k < s.length), j < 8 → (bits s)[8 * k + j]? = some (s[k].getLsbD (7 - j))) ∧
    unbits (bits s) = s ∧ (bits s).length = 8 * s.length ∧ ofBits (bits s) = be s ∧
    bits s = bitsBe (8 * s.length) (be s)

-- ---------------------------------------------------------------- the pipeline

/-- 42_driver_commands R142, its first sentence: sixty-four WRBs from CNT = 0 and one WRK of the same bytes leave the
same state but for BUF and the number of responses. -/
def Obligations.SixtyFourBytesAreABlock : Prop :=
  ∀ (s : State) (blk : List Byte), s.ph = .absorb → s.cnt = 0 → blk.length = 64 →
    ∃ t u, execAll (absorbCommands blk) s = .next t ∧ exec (.wrk blk) s = .next u ∧
      t.responses = s.responses ++ List.replicate 64 [0x00#8] ∧ u.responses = s.responses ++ [[0x00#8]] ∧
      t = { u with buf := t.buf, responses := t.responses }

/-- 42_driver_commands R142, its second sentence: the state after SEED and any legal sequence of WRB and WRK is given by
the seed and the bytes they carry: the chaining value, the count, the buffered bytes and the events. -/
def Obligations.AbsorbedStateFollowsBytes : Prop :=
  ∀ (s t : State) (cv0 : U256) (cmds : List Instr) (S : List Byte),
    (∀ i, i ∈ cmds → carriesStream i = true) → S = cmds.flatMap streamBytes → s.ph ≠ .fault →
    execAll (.seed cv0 :: cmds) s = .next t → t.ph = .absorb →
    t.cval = (blocksOf S).foldl (fun cv q => compress q cv) cv0 ∧ t.cnt.toNat = S.length % 64 ∧
    t.bufBytes (S.length % 64) = S.drop (64 * (S.length / 64)) ∧
    t.trace = s.trace ++ compressEvents cv0 (blocksOf S)

/-- 42_driver_commands R161: the chaining value after SEED, any legal sequence of WRB and WRK, and FIN is
`digest_bytes` of the bytes they carry, and its hexadecimal form is `digest`. The spec marks R161 as derived
from R140 to R143 and R135. -/
def Obligations.DigestOfStream : Prop :=
  ∀ (s t : State) (cv0 : U256) (cmds : List Instr) (S : List Byte),
    (∀ i, i ∈ cmds → carriesStream i = true) → S = cmds.flatMap streamBytes → s.ph ≠ .fault →
    execAll (.seed cv0 :: (cmds ++ [.fin])) s = .next t → t.ph = .done →
    t.cval = digestBytes S cv0 ∧ hex64 t.cval = digest S cv0 ∧ t.trace = s.trace ++ digestEvents S cv0

/-- 42_driver_commands R160: the host procedure for any stream and seed, from any phase but FAULT, is answered OK
throughout, and its last response carries the digest string. That the characters of the string are ASCII codes is
presumed (assumption 15). -/
def Obligations.HostProcedureGivesDigest : Prop :=
  ∀ (s : State) (S : List Byte) (cv0 : U256), s.ph ≠ .fault →
    (s.spillPolicy = .twoBlocks ∨ S.length % 64 < 56) →
    ∃ t oks, execAll (PseudoCommand.digest S cv0).expand s = .next t ∧ t.ph = .done ∧
      t.cval = digestBytes S cv0 ∧ t.trace = s.trace ++ digestEvents S cv0 ∧
      (∀ r, r ∈ oks → r = [0x00#8]) ∧ t.responses = s.responses ++ oks ++ [0x00#8 :: hex64 (digestBytes S cv0)]

/-- 42_driver_commands R162: the events of one run of the host procedure: how many there are of each kind, where PAD
stands, and that each `cv_in` is the `cv_out` before it, or the seed. The spec marks R162 as derived from R141, R143
and R135. -/
def Obligations.EventCounts : Prop :=
  ∀ (s : State) (S : List Byte) (cv0 : U256) (k r : Nat), s.ph ≠ .fault → k = S.length / 64 → r = S.length % 64 →
    (s.spillPolicy = .twoBlocks ∨ r < 56) →
    ∃ (t : State) (direct padded : List (List Byte)),
      execAll (PseudoCommand.digest S cv0).expand s = .next t ∧
      direct.length = k ∧ padded.length = (if r = 0 then 0 else if r ≤ 55 then 1 else 2) ∧
      t.trace = s.trace ++ compressEvents cv0 direct ++ (if r = 0 then [] else [.pad r]) ++
        compressEvents (direct.foldl (fun cv q => compress q cv) cv0) padded ∧
      ∀ q, q ∈ direct ++ padded → q.length = 64

/-- 30_encoding R76: the pseudo-commands COMPRESS and PAD answer the two pure functions. -/
def Obligations.PseudoCommandsAnswerFunctions : Prop :=
  (∀ (s : State) (blk : List Byte) (cv : U256), s.ph ≠ .fault → blk.length = 64 →
    ∃ t oks, execAll (PseudoCommand.compress blk cv).expand s = .next t ∧
      t.responses = s.responses ++ oks ++ [0x00#8 :: bytesBe 32 (compress blk cv).toNat]) ∧
  (∀ (s : State) (m : List Byte), s.ph ≠ .fault → m.length < 64 →
    ∃ t oks, execAll (PseudoCommand.pad m).expand s = .next t ∧
      t.responses = s.responses ++ oks ++ [0x00#8 :: pad m])
end

