-- ==== Sys2Proof/Laws/Bytes.lean ====
section
/-! SUPPORT. Byte sequences and their numbers (00_scope R12). -/

namespace Sys2Proof

@[simp] theorem length_bytesBe (n v : Nat) : (bytesBe n v).length = n := by
  induction n with
  | zero => rfl
  | succ n ih => simp [bytesBe, ih]

theorem be_lt (s : List Byte) : be s < 256 ^ s.length := by
  induction s with
  | nil => simp [be]
  | cons b s ih =>
    have hb : b.toNat ≤ 255 := by have := b.isLt; omega
    calc be (b :: s) < b.toNat * 256 ^ s.length + 256 ^ s.length := by simp only [be]; omega
      _ = (b.toNat + 1) * 256 ^ s.length := by ring
      _ ≤ 256 * 256 ^ s.length := Nat.mul_le_mul_right _ (by omega)
      _ = 256 ^ (b :: s).length := by rw [List.length_cons]; ring

theorem be_append (s t : List Byte) : be (s ++ t) = be s * 256 ^ t.length + be t := by
  induction s with
  | nil => simp [be]
  | cons b s ih =>
    simp only [List.cons_append, be, ih, List.length_append, pow_add]
    ring

/-- The bytes of a number depend on it only below `256 ^ n`. -/
theorem bytesBe_add_mul (n v k : Nat) : bytesBe n (v + k * 256 ^ n) = bytesBe n v := by
  induction n generalizing k with
  | zero => rfl
  | succ n ih =>
    have hpow : k * 256 ^ (n + 1) = (k * 256) * 256 ^ n := by ring
    simp only [bytesBe]
    congr 1
    · rw [hpow, Nat.add_mul_div_right _ _ (by positivity)]
      apply BitVec.eq_of_toNat_eq
      simp only [BitVec.toNat_ofNat]
      omega
    · rw [hpow]; exact ih (k * 256)

/-- `bytes_be` undoes `be`. -/
theorem bytesBe_be (s : List Byte) : bytesBe s.length (be s) = s := by
  induction s with
  | nil => rfl
  | cons b s ih =>
    have hlt := be_lt s
    simp only [List.length_cons, bytesBe, be]
    congr 1
    · rw [Nat.add_comm, Nat.add_mul_div_right _ _ (by positivity), Nat.div_eq_of_lt hlt]
      simp
    · rw [Nat.add_comm, bytesBe_add_mul]; exact ih

/-- `be` undoes `bytes_be`. -/
theorem be_bytesBe {n v : Nat} (h : v < 256 ^ n) : be (bytesBe n v) = v := by
  induction n generalizing v with
  | zero => simp [bytesBe, be] at h ⊢; omega
  | succ n ih =>
    have hq : v / 256 ^ n < 256 := Nat.div_lt_of_lt_mul (by rw [pow_succ] at h; exact h)
    have hv : v = v % 256 ^ n + v / 256 ^ n * 256 ^ n := by
      rw [Nat.mul_comm]; exact (Nat.mod_add_div v (256 ^ n)).symm
    have htail : bytesBe n v = bytesBe n (v % 256 ^ n) := by
      conv_lhs => rw [hv]
      exact bytesBe_add_mul ..
    rw [bytesBe, be, htail, ih (Nat.mod_lt _ (by positivity)), length_bytesBe, BitVec.toNat_ofNat,
      Nat.mod_eq_of_lt (by simpa using hq)]
    exact (Nat.add_comm _ _).trans hv.symm

@[simp] theorem be_bytesBe_toNat (v : U256) : be (bytesBe 32 v.toNat) = v.toNat :=
  be_bytesBe (by have := v.isLt; simpa using this)

/-- A number of `n` bytes is spelled by one byte sequence only. -/
theorem be_injective {s t : List Byte} (hl : s.length = t.length) (h : be s = be t) : s = t := by
  rw [← bytesBe_be s, ← bytesBe_be t, h, hl]

/-- The bytes of a number put together from two are the bytes of the two. -/
theorem bytesBe_append (n m v w : Nat) (hw : w < 256 ^ m) :
    bytesBe (n + m) (v * 256 ^ m + w) = bytesBe n v ++ bytesBe m w := by
  induction n with
  | zero =>
    simp only [Nat.zero_add, bytesBe, List.nil_append]
    rw [Nat.add_comm]
    exact bytesBe_add_mul ..
  | succ n ih =>
    rw [show n + 1 + m = (n + m) + 1 by omega]
    simp only [bytesBe, List.cons_append, ih]
    congr 2
    rw [pow_add, Nat.mul_comm (256 ^ n), ← Nat.div_div_eq_div_mul, Nat.add_comm,
      Nat.add_mul_div_right _ _ (by positivity), Nat.div_eq_of_lt hw, Nat.zero_add]

/-- The number of a run of bytes inside a sequence, from the number of the whole sequence. -/
theorem be_take_drop (p : List Byte) (i n : Nat) (h : i + n ≤ p.length) :
    be ((p.drop i).take n) = be p / 256 ^ (p.length - i - n) % 256 ^ n := by
  generalize hx : p.take i = x
  generalize hy : (p.drop i).take n = y
  generalize hz : p.drop (i + n) = z
  have h1 : p = x ++ (y ++ z) := by
    rw [← hx, ← hy, ← hz, ← List.drop_drop, List.take_append_drop, List.take_append_drop]
  have l2 : p.length - i - n = z.length := by rw [← hz, List.length_drop]; omega
  have l1 : y.length = n := by rw [← hy, List.length_take, List.length_drop]; omega
  have b1 := be_lt y
  have b2 := be_lt z
  have hsum : be x * 256 ^ (y.length + z.length) + (be y * 256 ^ z.length + be z) =
      be z + (be x * 256 ^ y.length + be y) * 256 ^ z.length := by rw [pow_add]; ring
  rw [l2, h1, be_append, be_append, ← l1, List.length_append, hsum, Nat.add_mul_div_right _ _ (by positivity),
    Nat.div_eq_of_lt b2, Nat.zero_add, Nat.add_comm, Nat.add_mul_mod_self_right, Nat.mod_eq_of_lt b1]

@[simp] theorem length_tableBytes (n w : Nat) : (tableBytes n w).length = n := by
  induction n generalizing w with
  | zero => rfl
  | succ n ih => simp [tableBytes, ih]

theorem Opcode.ofByte_byte (op : Opcode) : Opcode.ofByte op.byte = some op := by cases op <;> rfl

theorem Opcode.byte_of_ofByte {b : Byte} {op : Opcode} (h : Opcode.ofByte b = some op) : op.byte = b := by
  unfold Opcode.ofByte at h
  repeat' split at h
  all_goals first | (cases h; subst_vars; rfl) | cases h

theorem Opcode.ofByte_eq_some (b : Byte) (op : Opcode) : Opcode.ofByte b = some op ↔ b = op.byte :=
  ⟨fun h => (Opcode.byte_of_ofByte h).symm, fun h => h ▸ Opcode.ofByte_byte op⟩

/-- A transaction of a defined opcode decodes to a command when its length is the opcode's, else to `BadLength`. -/
theorem decode_byte_cons (op : Opcode) (p : List Byte) :
    decode (op.byte :: p) = if p.length + 1 = op.length then .command (op.assemble p) else .badLength := by
  simp only [decode, Opcode.ofByte_byte]

/-- What a decoded command says of its transaction. -/
theorem decode_eq_command {t : List Byte} {i : Instr} (h : decode t = .command i) :
    ∃ (op : Opcode) (p : List Byte), t = op.byte :: p ∧ p.length + 1 = op.length ∧ i = op.assemble p := by
  cases t with
  | nil => cases h
  | cons b p =>
    cases hop : Opcode.ofByte b with
    | none => simp [decode, hop] at h
    | some op =>
      obtain rfl := (Opcode.ofByte_eq_some b op).mp hop
      rw [decode_byte_cons] at h
      split at h
      · cases h; exact ⟨op, p, rfl, ‹_›, rfl⟩
      · cases h

/-- A command the decoder answers has a 64-byte block wherever it has a block. -/
theorem wellFormed_of_decode {t : List Byte} {i : Instr} (h : decode t = .command i) : i.wellFormed = true := by
  obtain ⟨op, p, -, hl, rfl⟩ := decode_eq_command h
  cases op <;> first | rfl | skip
  simp only [Opcode.length] at hl
  simp [Opcode.assemble, Instr.wellFormed, show Config.blockBytes = 64 from rfl]
  omega

end Sys2Proof
end

