-- ==== Sys2Proof/Laws/Blocks.lean ====
section
/-! SUPPORT. The 64-byte blocks of a byte sequence. -/

namespace Sys2Proof.Machine

@[simp] theorem length_blocksOf (p : List Byte) : (blocksOf p).length = p.length / 64 := by
  simp [blocksOf, Config.blockBytes]

theorem blocksOf_of_lt {p : List Byte} (h : p.length < 64) : blocksOf p = [] := by
  simp [blocksOf, Config.blockBytes, Nat.div_eq_of_lt h]

/-- A sequence that begins with a block is that block and the blocks of the rest. -/
theorem blocksOf_append {q : List Byte} (hq : q.length = 64) (p : List Byte) : blocksOf (q ++ p) = q :: blocksOf p := by
  have hd : (q ++ p).length / 64 = p.length / 64 + 1 := by simp [hq, Nat.add_comm 64]
  simp only [blocksOf, Config.blockBytes, hd, List.range_succ_eq_map, List.map_cons, List.map_map]
  congr 1
  · simp [← hq]
  · apply List.map_congr_left
    intro k _
    have hk : 64 * (k + 1) = q.length + 64 * k := by omega
    simp only [Function.comp, Nat.succ_eq_add_one, hk, List.drop_append, Nat.add_sub_cancel_left]
    rw [List.drop_of_length_le (by omega), List.nil_append]

theorem blocksOf_block {q : List Byte} (hq : q.length = 64) : blocksOf q = [q] := by
  have h := blocksOf_append hq []
  simpa [blocksOf_of_lt] using h

/-- Every block has 64 bytes (20_memory R44). -/
theorem length_of_mem_blocksOf {p q : List Byte} (h : q ∈ blocksOf p) : q.length = 64 := by
  simp only [blocksOf, Config.blockBytes, List.mem_map, List.mem_range] at h
  obtain ⟨k, hk, rfl⟩ := h
  simp only [List.length_take, List.length_drop]
  omega

/-- Induction on the blocks of a sequence, then on what is left. -/
theorem blocks_induction {P : List Byte → Prop} (hshort : ∀ p : List Byte, p.length < 64 → P p)
    (hblock : ∀ q p : List Byte, q.length = 64 → P p → P (q ++ p)) (p : List Byte) : P p := by
  generalize hn : p.length / 64 = n
  induction n generalizing p with
  | zero => exact hshort p (by omega)
  | succ n ih =>
    rw [← List.take_append_drop 64 p]
    exact hblock _ _ (by simp only [List.length_take]; omega) (ih _ (by simp only [List.length_drop]; omega))

/-- The blocks of a sequence are those of its first whole blocks. -/
theorem blocksOf_append_short (a b : List Byte) (ha : a.length % 64 = 0) : blocksOf (a ++ b) = blocksOf a ++ blocksOf b := by
  induction a using blocks_induction with
  | hshort a h =>
    have : a = [] := List.eq_nil_of_length_eq_zero (by omega)
    simp [this, blocksOf_of_lt]
  | hblock q a hq ih =>
    have hm : a.length % 64 = 0 := by simp [hq] at ha; omega
    rw [List.append_assoc, blocksOf_append hq, blocksOf_append hq, ih hm, List.cons_append]

/-- Put together again, the blocks of whole blocks are those bytes. -/
theorem flatten_blocksOf (a : List Byte) (h : a.length % 64 = 0) : (blocksOf a).flatten = a := by
  induction a using blocks_induction with
  | hshort a ha =>
    have : a = [] := List.eq_nil_of_length_eq_zero (by omega)
    simp [this, blocksOf_of_lt]
  | hblock q a hq ih => rw [blocksOf_append hq, List.flatten_cons, ih (by simp [hq] at h; omega)]

/-- A sequence is its whole blocks and a remainder of less than a block. -/
theorem exists_blocks_and_rest (S : List Byte) : ∃ a r, S = a ++ r ∧ a = S.take (64 * (S.length / 64)) ∧
    r = S.drop (64 * (S.length / 64)) ∧ a.length = 64 * (S.length / 64) ∧ r.length = S.length % 64 ∧
    blocksOf S = blocksOf a := by
  have ha : (S.take (64 * (S.length / 64))).length = 64 * (S.length / 64) := by rw [List.length_take]; omega
  have hr : (S.drop (64 * (S.length / 64))).length = S.length % 64 := by rw [List.length_drop]; omega
  refine ⟨_, _, (List.take_append_drop (64 * (S.length / 64)) S).symm, rfl, rfl, ha, hr, ?_⟩
  conv_lhs => rw [← List.take_append_drop (64 * (S.length / 64)) S]
  rw [blocksOf_append_short _ _ (by omega), blocksOf_of_lt (p := S.drop _) (by omega), List.append_nil]

/-- A part as a number (41_compressor R121). -/
theorem toNat_part (blk : List Byte) (i : Fin 4) (h : blk.length = 64) :
    (part blk i).toNat = be ((blk.drop (16 * i.val)).take 16) := by
  have hlt := be_lt ((blk.drop (16 * i.val)).take 16)
  have hl : ((blk.drop (16 * i.val)).take 16).length = 16 := by simp; omega
  rw [hl] at hlt
  rw [part, BitVec.toNat_ofNat, Nat.mod_eq_of_lt (by norm_num at hlt ⊢; exact hlt)]

end Sys2Proof.Machine
end

