-- ==== Sys2Proof/Laws/State.lean ====
section
/-! SUPPORT. What each update of State leaves in each field, one lemma per field and update, so that no later proof
unfolds an update. The proofs are written (rfl) so that simp rewrites with these lemmas and leaves no comparison of whole
states, compressions included, to the kernel. -/

namespace Sys2Proof.Machine

@[simp] theorem State.storeByte_cv0 (s : State) (j : Nat) (b : Byte) : (s.storeByte j b).cv0 = s.cv0 := (rfl)
@[simp] theorem State.storeByte_cv1 (s : State) (j : Nat) (b : Byte) : (s.storeByte j b).cv1 = s.cv1 := (rfl)
@[simp] theorem State.storeByte_cv2 (s : State) (j : Nat) (b : Byte) : (s.storeByte j b).cv2 = s.cv2 := (rfl)
@[simp] theorem State.storeByte_cv3 (s : State) (j : Nat) (b : Byte) : (s.storeByte j b).cv3 = s.cv3 := (rfl)
@[simp] theorem State.storeByte_buf (s : State) (j : Nat) (b : Byte) : (s.storeByte j b).buf = s.buf.write j b := (rfl)
@[simp] theorem State.storeByte_cnt (s : State) (j : Nat) (b : Byte) : (s.storeByte j b).cnt = s.cnt := (rfl)
@[simp] theorem State.storeByte_ph (s : State) (j : Nat) (b : Byte) : (s.storeByte j b).ph = s.ph := (rfl)
@[simp] theorem State.storeByte_errc (s : State) (j : Nat) (b : Byte) : (s.storeByte j b).errc = s.errc := (rfl)
@[simp] theorem State.storeByte_port (s : State) (j : Nat) (b : Byte) : (s.storeByte j b).port = s.port := (rfl)
@[simp] theorem State.storeByte_responses (s : State) (j : Nat) (b : Byte) : (s.storeByte j b).responses = s.responses := (rfl)
@[simp] theorem State.storeByte_trace (s : State) (j : Nat) (b : Byte) : (s.storeByte j b).trace = s.trace := (rfl)
@[simp] theorem State.storeByte_spillPolicy (s : State) (j : Nat) (b : Byte) : (s.storeByte j b).spillPolicy = s.spillPolicy := (rfl)
@[simp] theorem State.storeByte_draws (s : State) (j : Nat) (b : Byte) : (s.storeByte j b).draws = s.draws := (rfl)

@[simp] theorem State.setCval_cv0 (s : State) (v : U256) : (s.setCval v).cv0 = laneOf v 0 := (rfl)
@[simp] theorem State.setCval_cv1 (s : State) (v : U256) : (s.setCval v).cv1 = laneOf v 1 := (rfl)
@[simp] theorem State.setCval_cv2 (s : State) (v : U256) : (s.setCval v).cv2 = laneOf v 2 := (rfl)
@[simp] theorem State.setCval_cv3 (s : State) (v : U256) : (s.setCval v).cv3 = laneOf v 3 := (rfl)
@[simp] theorem State.setCval_buf (s : State) (v : U256) : (s.setCval v).buf = s.buf := (rfl)
@[simp] theorem State.setCval_cnt (s : State) (v : U256) : (s.setCval v).cnt = s.cnt := (rfl)
@[simp] theorem State.setCval_ph (s : State) (v : U256) : (s.setCval v).ph = s.ph := (rfl)
@[simp] theorem State.setCval_errc (s : State) (v : U256) : (s.setCval v).errc = s.errc := (rfl)
@[simp] theorem State.setCval_port (s : State) (v : U256) : (s.setCval v).port = s.port := (rfl)
@[simp] theorem State.setCval_responses (s : State) (v : U256) : (s.setCval v).responses = s.responses := (rfl)
@[simp] theorem State.setCval_trace (s : State) (v : U256) : (s.setCval v).trace = s.trace := (rfl)
@[simp] theorem State.setCval_spillPolicy (s : State) (v : U256) : (s.setCval v).spillPolicy = s.spillPolicy := (rfl)
@[simp] theorem State.setCval_draws (s : State) (v : U256) : (s.setCval v).draws = s.draws := (rfl)

@[simp] theorem State.setCnt_cv0 (s : State) (n : BitVec 6) : (s.setCnt n).cv0 = s.cv0 := (rfl)
@[simp] theorem State.setCnt_cv1 (s : State) (n : BitVec 6) : (s.setCnt n).cv1 = s.cv1 := (rfl)
@[simp] theorem State.setCnt_cv2 (s : State) (n : BitVec 6) : (s.setCnt n).cv2 = s.cv2 := (rfl)
@[simp] theorem State.setCnt_cv3 (s : State) (n : BitVec 6) : (s.setCnt n).cv3 = s.cv3 := (rfl)
@[simp] theorem State.setCnt_buf (s : State) (n : BitVec 6) : (s.setCnt n).buf = s.buf := (rfl)
@[simp] theorem State.setCnt_cnt (s : State) (n : BitVec 6) : (s.setCnt n).cnt = n := (rfl)
@[simp] theorem State.setCnt_ph (s : State) (n : BitVec 6) : (s.setCnt n).ph = s.ph := (rfl)
@[simp] theorem State.setCnt_errc (s : State) (n : BitVec 6) : (s.setCnt n).errc = s.errc := (rfl)
@[simp] theorem State.setCnt_port (s : State) (n : BitVec 6) : (s.setCnt n).port = s.port := (rfl)
@[simp] theorem State.setCnt_responses (s : State) (n : BitVec 6) : (s.setCnt n).responses = s.responses := (rfl)
@[simp] theorem State.setCnt_trace (s : State) (n : BitVec 6) : (s.setCnt n).trace = s.trace := (rfl)
@[simp] theorem State.setCnt_spillPolicy (s : State) (n : BitVec 6) : (s.setCnt n).spillPolicy = s.spillPolicy := (rfl)
@[simp] theorem State.setCnt_draws (s : State) (n : BitVec 6) : (s.setCnt n).draws = s.draws := (rfl)

@[simp] theorem State.setPhase_cv0 (s : State) (p : Phase) : (s.setPhase p).cv0 = s.cv0 := (rfl)
@[simp] theorem State.setPhase_cv1 (s : State) (p : Phase) : (s.setPhase p).cv1 = s.cv1 := (rfl)
@[simp] theorem State.setPhase_cv2 (s : State) (p : Phase) : (s.setPhase p).cv2 = s.cv2 := (rfl)
@[simp] theorem State.setPhase_cv3 (s : State) (p : Phase) : (s.setPhase p).cv3 = s.cv3 := (rfl)
@[simp] theorem State.setPhase_buf (s : State) (p : Phase) : (s.setPhase p).buf = s.buf := (rfl)
@[simp] theorem State.setPhase_cnt (s : State) (p : Phase) : (s.setPhase p).cnt = s.cnt := (rfl)
@[simp] theorem State.setPhase_ph (s : State) (p : Phase) : (s.setPhase p).ph = p := (rfl)
@[simp] theorem State.setPhase_errc (s : State) (p : Phase) : (s.setPhase p).errc = s.errc := (rfl)
@[simp] theorem State.setPhase_port (s : State) (p : Phase) : (s.setPhase p).port = s.port := (rfl)
@[simp] theorem State.setPhase_responses (s : State) (p : Phase) : (s.setPhase p).responses = s.responses := (rfl)
@[simp] theorem State.setPhase_trace (s : State) (p : Phase) : (s.setPhase p).trace = s.trace := (rfl)
@[simp] theorem State.setPhase_spillPolicy (s : State) (p : Phase) : (s.setPhase p).spillPolicy = s.spillPolicy := (rfl)
@[simp] theorem State.setPhase_draws (s : State) (p : Phase) : (s.setPhase p).draws = s.draws := (rfl)

@[simp] theorem State.emit_cv0 (s : State) (e : Event) : (s.emit e).cv0 = s.cv0 := (rfl)
@[simp] theorem State.emit_cv1 (s : State) (e : Event) : (s.emit e).cv1 = s.cv1 := (rfl)
@[simp] theorem State.emit_cv2 (s : State) (e : Event) : (s.emit e).cv2 = s.cv2 := (rfl)
@[simp] theorem State.emit_cv3 (s : State) (e : Event) : (s.emit e).cv3 = s.cv3 := (rfl)
@[simp] theorem State.emit_buf (s : State) (e : Event) : (s.emit e).buf = s.buf := (rfl)
@[simp] theorem State.emit_cnt (s : State) (e : Event) : (s.emit e).cnt = s.cnt := (rfl)
@[simp] theorem State.emit_ph (s : State) (e : Event) : (s.emit e).ph = s.ph := (rfl)
@[simp] theorem State.emit_errc (s : State) (e : Event) : (s.emit e).errc = s.errc := (rfl)
@[simp] theorem State.emit_port (s : State) (e : Event) : (s.emit e).port = s.port := (rfl)
@[simp] theorem State.emit_responses (s : State) (e : Event) : (s.emit e).responses = s.responses := (rfl)
@[simp] theorem State.emit_trace (s : State) (e : Event) : (s.emit e).trace = s.trace ++ [e] := (rfl)
@[simp] theorem State.emit_spillPolicy (s : State) (e : Event) : (s.emit e).spillPolicy = s.spillPolicy := (rfl)
@[simp] theorem State.emit_draws (s : State) (e : Event) : (s.emit e).draws = s.draws := (rfl)

@[simp] theorem State.respond_cv0 (s : State) (st : Byte) (data : List Byte) : (s.respond st data).cv0 = s.cv0 := (rfl)
@[simp] theorem State.respond_cv1 (s : State) (st : Byte) (data : List Byte) : (s.respond st data).cv1 = s.cv1 := (rfl)
@[simp] theorem State.respond_cv2 (s : State) (st : Byte) (data : List Byte) : (s.respond st data).cv2 = s.cv2 := (rfl)
@[simp] theorem State.respond_cv3 (s : State) (st : Byte) (data : List Byte) : (s.respond st data).cv3 = s.cv3 := (rfl)
@[simp] theorem State.respond_buf (s : State) (st : Byte) (data : List Byte) : (s.respond st data).buf = s.buf := (rfl)
@[simp] theorem State.respond_cnt (s : State) (st : Byte) (data : List Byte) : (s.respond st data).cnt = s.cnt := (rfl)
@[simp] theorem State.respond_ph (s : State) (st : Byte) (data : List Byte) : (s.respond st data).ph = s.ph := (rfl)
@[simp] theorem State.respond_errc (s : State) (st : Byte) (data : List Byte) : (s.respond st data).errc = s.errc := (rfl)
@[simp] theorem State.respond_port (s : State) (st : Byte) (data : List Byte) : (s.respond st data).port = s.port := (rfl)
@[simp] theorem State.respond_responses (s : State) (st : Byte) (data : List Byte) : (s.respond st data).responses = s.responses ++ [st :: data] := (rfl)
@[simp] theorem State.respond_trace (s : State) (st : Byte) (data : List Byte) : (s.respond st data).trace = s.trace := (rfl)
@[simp] theorem State.respond_spillPolicy (s : State) (st : Byte) (data : List Byte) : (s.respond st data).spillPolicy = s.spillPolicy := (rfl)
@[simp] theorem State.respond_draws (s : State) (st : Byte) (data : List Byte) : (s.respond st data).draws = s.draws := (rfl)

@[simp] theorem State.raise_cv0 (s : State) (e : Error) : (s.raise e).cv0 = s.cv0 := (rfl)
@[simp] theorem State.raise_cv1 (s : State) (e : Error) : (s.raise e).cv1 = s.cv1 := (rfl)
@[simp] theorem State.raise_cv2 (s : State) (e : Error) : (s.raise e).cv2 = s.cv2 := (rfl)
@[simp] theorem State.raise_cv3 (s : State) (e : Error) : (s.raise e).cv3 = s.cv3 := (rfl)
@[simp] theorem State.raise_buf (s : State) (e : Error) : (s.raise e).buf = s.buf := (rfl)
@[simp] theorem State.raise_cnt (s : State) (e : Error) : (s.raise e).cnt = s.cnt := (rfl)
@[simp] theorem State.raise_ph (s : State) (e : Error) : (s.raise e).ph = .fault := (rfl)
@[simp] theorem State.raise_errc (s : State) (e : Error) : (s.raise e).errc = e.code := (rfl)
@[simp] theorem State.raise_port (s : State) (e : Error) : (s.raise e).port = s.port := (rfl)
@[simp] theorem State.raise_responses (s : State) (e : Error) : (s.raise e).responses = s.responses ++ [[e.code]] := (rfl)
@[simp] theorem State.raise_trace (s : State) (e : Error) : (s.raise e).trace = s.trace := (rfl)
@[simp] theorem State.raise_spillPolicy (s : State) (e : Error) : (s.raise e).spillPolicy = s.spillPolicy := (rfl)
@[simp] theorem State.raise_draws (s : State) (e : Error) : (s.raise e).draws = s.draws := (rfl)

@[simp] theorem State.answerFaulted_cv0 (s : State) : s.answerFaulted.cv0 = s.cv0 := (rfl)
@[simp] theorem State.answerFaulted_cv1 (s : State) : s.answerFaulted.cv1 = s.cv1 := (rfl)
@[simp] theorem State.answerFaulted_cv2 (s : State) : s.answerFaulted.cv2 = s.cv2 := (rfl)
@[simp] theorem State.answerFaulted_cv3 (s : State) : s.answerFaulted.cv3 = s.cv3 := (rfl)
@[simp] theorem State.answerFaulted_buf (s : State) : s.answerFaulted.buf = s.buf := (rfl)
@[simp] theorem State.answerFaulted_cnt (s : State) : s.answerFaulted.cnt = s.cnt := (rfl)
@[simp] theorem State.answerFaulted_ph (s : State) : s.answerFaulted.ph = s.ph := (rfl)
@[simp] theorem State.answerFaulted_errc (s : State) : s.answerFaulted.errc = s.errc := (rfl)
@[simp] theorem State.answerFaulted_port (s : State) : s.answerFaulted.port = s.port := (rfl)
@[simp] theorem State.answerFaulted_responses (s : State) : s.answerFaulted.responses = s.responses ++ [[statusFaulted]] := (rfl)
@[simp] theorem State.answerFaulted_trace (s : State) : s.answerFaulted.trace = s.trace := (rfl)
@[simp] theorem State.answerFaulted_spillPolicy (s : State) : s.answerFaulted.spillPolicy = s.spillPolicy := (rfl)
@[simp] theorem State.answerFaulted_draws (s : State) : s.answerFaulted.draws = s.draws := (rfl)

@[simp] theorem State.clear_cv0 (s : State) : s.clear.cv0 = laneOf (Config.freeCval (s.draws + 1)) 0 := (rfl)
@[simp] theorem State.clear_cv1 (s : State) : s.clear.cv1 = laneOf (Config.freeCval (s.draws + 1)) 1 := (rfl)
@[simp] theorem State.clear_cv2 (s : State) : s.clear.cv2 = laneOf (Config.freeCval (s.draws + 1)) 2 := (rfl)
@[simp] theorem State.clear_cv3 (s : State) : s.clear.cv3 = laneOf (Config.freeCval (s.draws + 1)) 3 := (rfl)
@[simp] theorem State.clear_buf (s : State) : s.clear.buf = [] := (rfl)
@[simp] theorem State.clear_cnt (s : State) : s.clear.cnt = 0 := (rfl)
@[simp] theorem State.clear_ph (s : State) : s.clear.ph = .idle := (rfl)
@[simp] theorem State.clear_errc (s : State) : s.clear.errc = 0x00#8 := (rfl)
@[simp] theorem State.clear_port (s : State) : s.clear.port = s.port := (rfl)
@[simp] theorem State.clear_responses (s : State) : s.clear.responses = s.responses := (rfl)
@[simp] theorem State.clear_trace (s : State) : s.clear.trace = s.trace := (rfl)
@[simp] theorem State.clear_spillPolicy (s : State) : s.clear.spillPolicy = s.spillPolicy := (rfl)
@[simp] theorem State.clear_draws (s : State) : s.clear.draws = s.draws + 1 := (rfl)

@[simp] theorem State.hardwareReset_cv0 (s : State) : s.hardwareReset.cv0 = laneOf (Config.freeCval (s.draws + 1)) 0 := (rfl)
@[simp] theorem State.hardwareReset_cv1 (s : State) : s.hardwareReset.cv1 = laneOf (Config.freeCval (s.draws + 1)) 1 := (rfl)
@[simp] theorem State.hardwareReset_cv2 (s : State) : s.hardwareReset.cv2 = laneOf (Config.freeCval (s.draws + 1)) 2 := (rfl)
@[simp] theorem State.hardwareReset_cv3 (s : State) : s.hardwareReset.cv3 = laneOf (Config.freeCval (s.draws + 1)) 3 := (rfl)
@[simp] theorem State.hardwareReset_buf (s : State) : s.hardwareReset.buf = [] := (rfl)
@[simp] theorem State.hardwareReset_cnt (s : State) : s.hardwareReset.cnt = 0 := (rfl)
@[simp] theorem State.hardwareReset_ph (s : State) : s.hardwareReset.ph = .idle := (rfl)
@[simp] theorem State.hardwareReset_errc (s : State) : s.hardwareReset.errc = 0x00#8 := (rfl)
@[simp] theorem State.hardwareReset_port (s : State) : s.hardwareReset.port = s.port := (rfl)
@[simp] theorem State.hardwareReset_responses (s : State) : s.hardwareReset.responses = s.responses := (rfl)
@[simp] theorem State.hardwareReset_trace (s : State) : s.hardwareReset.trace = [] := (rfl)
@[simp] theorem State.hardwareReset_spillPolicy (s : State) : s.hardwareReset.spillPolicy = s.spillPolicy := (rfl)
@[simp] theorem State.hardwareReset_draws (s : State) : s.hardwareReset.draws = s.draws + 1 := (rfl)

@[simp] theorem State.setPort_cv0 (s : State) (rest : List PortInput) : (s.setPort rest).cv0 = s.cv0 := (rfl)
@[simp] theorem State.setPort_cv1 (s : State) (rest : List PortInput) : (s.setPort rest).cv1 = s.cv1 := (rfl)
@[simp] theorem State.setPort_cv2 (s : State) (rest : List PortInput) : (s.setPort rest).cv2 = s.cv2 := (rfl)
@[simp] theorem State.setPort_cv3 (s : State) (rest : List PortInput) : (s.setPort rest).cv3 = s.cv3 := (rfl)
@[simp] theorem State.setPort_buf (s : State) (rest : List PortInput) : (s.setPort rest).buf = s.buf := (rfl)
@[simp] theorem State.setPort_cnt (s : State) (rest : List PortInput) : (s.setPort rest).cnt = s.cnt := (rfl)
@[simp] theorem State.setPort_ph (s : State) (rest : List PortInput) : (s.setPort rest).ph = s.ph := (rfl)
@[simp] theorem State.setPort_errc (s : State) (rest : List PortInput) : (s.setPort rest).errc = s.errc := (rfl)
@[simp] theorem State.setPort_port (s : State) (rest : List PortInput) : (s.setPort rest).port = rest := (rfl)
@[simp] theorem State.setPort_responses (s : State) (rest : List PortInput) : (s.setPort rest).responses = s.responses := (rfl)
@[simp] theorem State.setPort_trace (s : State) (rest : List PortInput) : (s.setPort rest).trace = s.trace := (rfl)
@[simp] theorem State.setPort_spillPolicy (s : State) (rest : List PortInput) : (s.setPort rest).spillPolicy = s.spillPolicy := (rfl)
@[simp] theorem State.setPort_draws (s : State) (rest : List PortInput) : (s.setPort rest).draws = s.draws := (rfl)

@[simp] theorem State.pushTransaction_cv0 (s : State) (t : List Byte) : (s.pushTransaction t).cv0 = s.cv0 := (rfl)
@[simp] theorem State.pushTransaction_cv1 (s : State) (t : List Byte) : (s.pushTransaction t).cv1 = s.cv1 := (rfl)
@[simp] theorem State.pushTransaction_cv2 (s : State) (t : List Byte) : (s.pushTransaction t).cv2 = s.cv2 := (rfl)
@[simp] theorem State.pushTransaction_cv3 (s : State) (t : List Byte) : (s.pushTransaction t).cv3 = s.cv3 := (rfl)
@[simp] theorem State.pushTransaction_buf (s : State) (t : List Byte) : (s.pushTransaction t).buf = s.buf := (rfl)
@[simp] theorem State.pushTransaction_cnt (s : State) (t : List Byte) : (s.pushTransaction t).cnt = s.cnt := (rfl)
@[simp] theorem State.pushTransaction_ph (s : State) (t : List Byte) : (s.pushTransaction t).ph = s.ph := (rfl)
@[simp] theorem State.pushTransaction_errc (s : State) (t : List Byte) : (s.pushTransaction t).errc = s.errc := (rfl)
@[simp] theorem State.pushTransaction_port (s : State) (t : List Byte) : (s.pushTransaction t).port = .transaction t :: s.port := (rfl)
@[simp] theorem State.pushTransaction_responses (s : State) (t : List Byte) : (s.pushTransaction t).responses = s.responses := (rfl)
@[simp] theorem State.pushTransaction_trace (s : State) (t : List Byte) : (s.pushTransaction t).trace = s.trace := (rfl)
@[simp] theorem State.pushTransaction_spillPolicy (s : State) (t : List Byte) : (s.pushTransaction t).spillPolicy = s.spillPolicy := (rfl)
@[simp] theorem State.pushTransaction_draws (s : State) (t : List Byte) : (s.pushTransaction t).draws = s.draws := (rfl)

@[simp] theorem State.absorbBlock_cv0 (s : State) (blk : List Byte) : (s.absorbBlock blk).cv0 = laneOf (compress blk s.cval) 0 := by
  rw [State.absorbBlock, State.emit_cv0, State.setCval_cv0]
@[simp] theorem State.absorbBlock_cv1 (s : State) (blk : List Byte) : (s.absorbBlock blk).cv1 = laneOf (compress blk s.cval) 1 := by
  rw [State.absorbBlock, State.emit_cv1, State.setCval_cv1]
@[simp] theorem State.absorbBlock_cv2 (s : State) (blk : List Byte) : (s.absorbBlock blk).cv2 = laneOf (compress blk s.cval) 2 := by
  rw [State.absorbBlock, State.emit_cv2, State.setCval_cv2]
@[simp] theorem State.absorbBlock_cv3 (s : State) (blk : List Byte) : (s.absorbBlock blk).cv3 = laneOf (compress blk s.cval) 3 := by
  rw [State.absorbBlock, State.emit_cv3, State.setCval_cv3]
@[simp] theorem State.absorbBlock_buf (s : State) (blk : List Byte) : (s.absorbBlock blk).buf = s.buf := by
  rw [State.absorbBlock, State.emit_buf, State.setCval_buf]
@[simp] theorem State.absorbBlock_cnt (s : State) (blk : List Byte) : (s.absorbBlock blk).cnt = s.cnt := by
  rw [State.absorbBlock, State.emit_cnt, State.setCval_cnt]
@[simp] theorem State.absorbBlock_ph (s : State) (blk : List Byte) : (s.absorbBlock blk).ph = s.ph := by
  rw [State.absorbBlock, State.emit_ph, State.setCval_ph]
@[simp] theorem State.absorbBlock_errc (s : State) (blk : List Byte) : (s.absorbBlock blk).errc = s.errc := by
  rw [State.absorbBlock, State.emit_errc, State.setCval_errc]
@[simp] theorem State.absorbBlock_port (s : State) (blk : List Byte) : (s.absorbBlock blk).port = s.port := by
  rw [State.absorbBlock, State.emit_port, State.setCval_port]
@[simp] theorem State.absorbBlock_responses (s : State) (blk : List Byte) : (s.absorbBlock blk).responses = s.responses := by
  rw [State.absorbBlock, State.emit_responses, State.setCval_responses]
@[simp] theorem State.absorbBlock_trace (s : State) (blk : List Byte) : (s.absorbBlock blk).trace = s.trace ++ [.compress blk s.cval (compress blk s.cval)] := by
  rw [State.absorbBlock, State.emit_trace, State.setCval_trace]
@[simp] theorem State.absorbBlock_spillPolicy (s : State) (blk : List Byte) : (s.absorbBlock blk).spillPolicy = s.spillPolicy := by
  rw [State.absorbBlock, State.emit_spillPolicy, State.setCval_spillPolicy]
@[simp] theorem State.absorbBlock_draws (s : State) (blk : List Byte) : (s.absorbBlock blk).draws = s.draws := by
  rw [State.absorbBlock, State.emit_draws, State.setCval_draws]

end Sys2Proof.Machine
end

