-- ==== Sys2Proof/Laws/Lanes.lean ====
section
/-! SUPPORT. The lanes and the chaining value are two views of the same bits (10_state R21, 41_compressor R123, R128). -/

namespace Sys2Proof.Machine

theorem getLsbD_joinLanes (l0 l1 l2 l3 : U64) (j : Nat) :
    (joinLanes l0 l1 l2 l3).getLsbD j =
      if j < 64 then l3.getLsbD j else if j < 128 then l2.getLsbD (j - 64)
      else if j < 192 then l1.getLsbD (j - 128) else l0.getLsbD (j - 192) := by
  unfold joinLanes
  simp only [BitVec.getLsbD_append]
  by_cases h0 : j < 64
  · simp [h0]
  · by_cases h1 : j < 128
    · have : j - 64 < 64 := by omega
      simp [h0, h1, this]
    · by_cases h2 : j < 192
      · have h3 : ¬ j - 64 < 64 := by omega
        have h4 : j - 64 - 64 < 64 := by omega
        have h5 : j - 64 - 64 = j - 128 := by omega
        have h6 : j - 128 < 64 := by omega
        simp only [h0, h1, h2, h3, h5, h6, if_true, if_false]
      · have h3 : ¬ j - 64 < 64 := by omega
        have h4 : ¬ j - 128 < 64 := by omega
        have h5 : j - 64 - 64 = j - 128 := by omega
        have h6 : j - 128 - 64 = j - 192 := by omega
        simp [h0, h1, h2, h3, h4, h5, h6]

theorem getLsbD_laneOf (v : U256) (i : Fin 4) (j : Nat) :
    (laneOf v i).getLsbD j = (decide (j < 64) && v.getLsbD (192 - 64 * i.val + j)) := by
  simp [laneOf, BitVec.getLsbD_extractLsb']

@[simp] theorem laneOf_joinLanes_zero (l0 l1 l2 l3 : U64) : laneOf (joinLanes l0 l1 l2 l3) 0 = l0 := by
  apply BitVec.eq_of_getLsbD_eq
  intro j hj
  rw [getLsbD_laneOf, getLsbD_joinLanes]
  have h1 : ¬ 192 + j < 64 := by omega
  have h2 : ¬ 192 + j < 128 := by omega
  simp [hj, h1, h2]

@[simp] theorem laneOf_joinLanes_one (l0 l1 l2 l3 : U64) : laneOf (joinLanes l0 l1 l2 l3) 1 = l1 := by
  apply BitVec.eq_of_getLsbD_eq
  intro j hj
  rw [getLsbD_laneOf, getLsbD_joinLanes]
  have h1 : ¬ 128 + j < 64 := by omega
  have h3 : 128 + j < 192 := by omega
  simp [hj, h1, h3]

@[simp] theorem laneOf_joinLanes_two (l0 l1 l2 l3 : U64) : laneOf (joinLanes l0 l1 l2 l3) 2 = l2 := by
  apply BitVec.eq_of_getLsbD_eq
  intro j hj
  rw [getLsbD_laneOf, getLsbD_joinLanes]
  have h1 : ¬ 64 + j < 64 := by omega
  have h3 : 64 + j < 128 := by omega
  simp [hj, h3]

@[simp] theorem laneOf_joinLanes_three (l0 l1 l2 l3 : U64) : laneOf (joinLanes l0 l1 l2 l3) 3 = l3 := by
  apply BitVec.eq_of_getLsbD_eq
  intro j hj
  rw [getLsbD_laneOf, getLsbD_joinLanes]
  simp [hj]

@[simp] theorem joinLanes_laneOf (v : U256) : joinLanes (laneOf v 0) (laneOf v 1) (laneOf v 2) (laneOf v 3) = v := by
  apply BitVec.eq_of_getLsbD_eq
  intro j hj
  rw [getLsbD_joinLanes]
  simp only [getLsbD_laneOf]
  by_cases h0 : j < 64
  · simp [h0]
  · by_cases h1 : j < 128
    · simp [h0, h1, (by omega : j - 64 < 64), (by omega : 64 + (j - 64) = j)]
    · by_cases h2 : j < 192
      · simp [h0, h1, h2, (by omega : j - 128 < 64), (by omega : 128 + (j - 128) = j)]
      · simp [h0, h1, h2, (by omega : j - 192 < 64), (by omega : 192 + (j - 192) = j)]

/-- A lane as a number (41_compressor R123). -/
theorem toNat_laneOf (v : U256) (i : Fin 4) : (laneOf v i).toNat = v.toNat / 2 ^ (192 - 64 * i.val) % 2 ^ 64 := by
  simp [laneOf, BitVec.extractLsb'_toNat, Nat.shiftRight_eq_div_pow]

/-- Two values with the same lanes are equal. -/
theorem eq_of_laneOf_eq {v w : U256} (h : ∀ i, laneOf v i = laneOf w i) : v = w := by
  rw [← joinLanes_laneOf v, ← joinLanes_laneOf w, h 0, h 1, h 2, h 3]

@[simp] theorem laneOf_cval_zero (s : State) : laneOf s.cval 0 = s.cv0 := laneOf_joinLanes_zero ..
@[simp] theorem laneOf_cval_one (s : State) : laneOf s.cval 1 = s.cv1 := laneOf_joinLanes_one ..
@[simp] theorem laneOf_cval_two (s : State) : laneOf s.cval 2 = s.cv2 := laneOf_joinLanes_two ..
@[simp] theorem laneOf_cval_three (s : State) : laneOf s.cval 3 = s.cv3 := laneOf_joinLanes_three ..

@[simp] theorem State.setCval_cval (s : State) (v : U256) : (s.setCval v).cval = v := joinLanes_laneOf v

@[simp] theorem State.clear_cval (s : State) : s.clear.cval = Config.freeCval (s.draws + 1) := joinLanes_laneOf _

@[simp] theorem State.storeByte_cval (s : State) (j : Nat) (b : Byte) : (s.storeByte j b).cval = s.cval := (rfl)

@[simp] theorem State.setCnt_cval (s : State) (n : BitVec 6) : (s.setCnt n).cval = s.cval := (rfl)

@[simp] theorem State.setPhase_cval (s : State) (p : Phase) : (s.setPhase p).cval = s.cval := (rfl)

@[simp] theorem State.emit_cval (s : State) (e : Event) : (s.emit e).cval = s.cval := (rfl)

@[simp] theorem State.respond_cval (s : State) (st : Byte) (data : List Byte) :
    (s.respond st data).cval = s.cval := (rfl)

@[simp] theorem State.raise_cval (s : State) (e : Error) : (s.raise e).cval = s.cval := (rfl)

@[simp] theorem State.answerFaulted_cval (s : State) : s.answerFaulted.cval = s.cval := (rfl)

@[simp] theorem State.setPort_cval (s : State) (rest : List PortInput) : (s.setPort rest).cval = s.cval := (rfl)

@[simp] theorem State.absorbBlock_cval (s : State) (blk : List Byte) :
    (s.absorbBlock blk).cval = compress blk s.cval := by
  rw [State.absorbBlock, State.emit_cval, State.setCval_cval]

end Sys2Proof.Machine
end

