-- ==== Sys2Proof/Laws/Memory.lean ====
section
/-! SUPPORT. BUF: a read after a write, and the canonical form that every operation keeps. -/

namespace Sys2Proof.Machine

theorem Memory.read_write (m : Memory) (j k : Nat) (v : Byte) :
    (m.write j v).read k = if k = j then some v else m.read k := by
  induction m with
  | nil => simp [Memory.write, Memory.read]
  | cons c m ih =>
    obtain ⟨a, b⟩ := c
    by_cases h1 : j < a
    · simp [Memory.write, Memory.read, h1]
    · by_cases h2 : j = a
      · subst h2
        by_cases h3 : k = j <;> simp [Memory.write, Memory.read, h3]
      · by_cases h3 : k = a
        · subst h3
          simp [Memory.write, Memory.read, h1, h2, Ne.symm h2]
        · simp [Memory.write, Memory.read, h1, h2, h3, ih]

@[simp] theorem Memory.read_write_self (m : Memory) (j : Nat) (v : Byte) : (m.write j v).read j = some v := by
  simp [Memory.read_write]

theorem Memory.read_write_of_ne (m : Memory) {j k : Nat} (v : Byte) (h : k ≠ j) : (m.write j v).read k = m.read k := by
  simp [Memory.read_write, h]

theorem Memory.wfFrom_cons (lo : Nat) (c : Host.Cell) (m : Memory) :
    Memory.wfFrom lo (c :: m) = true ↔ (lo ≤ c.1 ∧ c.1 < 64) ∧ Memory.wfFrom (c.1 + 1) m = true := by
  simp [Memory.wfFrom, show Config.blockBytes = 64 from rfl]

theorem Memory.wfFrom_write {lo : Nat} {m : Memory} (h : Memory.wfFrom lo m = true) {j : Nat} (hl : lo ≤ j)
    (hj : j < 64) (v : Byte) : Memory.wfFrom lo (m.write j v) = true := by
  induction m generalizing lo with
  | nil => exact (Memory.wfFrom_cons lo (j, v) []).mpr ⟨⟨hl, hj⟩, rfl⟩
  | cons c m ih =>
    have hc := (Memory.wfFrom_cons lo c m).mp h
    by_cases h1 : j < c.1
    · simp only [Memory.write, if_pos h1]
      exact (Memory.wfFrom_cons ..).mpr ⟨⟨hl, hj⟩, (Memory.wfFrom_cons ..).mpr ⟨⟨h1, hc.1.2⟩, hc.2⟩⟩
    · by_cases h2 : j = c.1
      · simp only [Memory.write, if_neg h1, if_pos h2]
        exact (Memory.wfFrom_cons ..).mpr ⟨⟨hl, hj⟩, h2 ▸ hc.2⟩
      · simp only [Memory.write, if_neg h1, if_neg h2]
        exact (Memory.wfFrom_cons ..).mpr ⟨hc.1, ih hc.2 (by omega)⟩

/-- A store at an offset below 64 keeps the canonical form. -/
theorem Memory.wf_write {m : Memory} (h : m.wf = true) {j : Nat} (hj : j < 64) (v : Byte) : (m.write j v).wf = true :=
  Memory.wfFrom_write h (Nat.zero_le _) hj v

theorem Memory.wf_nil : Memory.wf [] = true := rfl

/-- In the canonical form no offset above 63 is listed (20_memory R40). -/
theorem Memory.read_of_wf {m : Memory} (h : m.wf = true) {j : Nat} (hj : 64 ≤ j) : m.read j = none := by
  suffices ∀ lo, Memory.wfFrom lo m = true → m.read j = none from this 0 h
  clear h
  induction m with
  | nil => intro _ _; rfl
  | cons c m ih =>
    intro lo h
    have hc := (Memory.wfFrom_cons lo c m).mp h
    have hne : ¬ j = c.1 := by omega
    simp only [Memory.read, if_neg hne]
    exact ih _ hc.2

theorem State.bufByte_storeByte (s : State) (j k : Nat) (b : Byte) :
    (s.storeByte j b).bufByte k = if k = j then b else s.bufByte k := by
  by_cases h : k = j <;> simp [State.bufByte, State.storeByte, Memory.read_write, h]

@[simp] theorem State.length_bufBytes (s : State) (n : Nat) : (s.bufBytes n).length = n := by simp [State.bufBytes]

theorem State.bufBytes_congr {s t : State} {n : Nat} (h : ∀ j, j < n → s.bufByte j = t.bufByte j) :
    s.bufBytes n = t.bufBytes n := by
  simp only [State.bufBytes]
  apply List.map_congr_left
  intro j hj
  exact h j (List.mem_range.mp hj)

theorem State.bufBytes_succ (s : State) (n : Nat) : s.bufBytes (n + 1) = s.bufBytes n ++ [s.bufByte n] := by
  simp [State.bufBytes, List.range_succ]

/-- The byte just stored comes after the ones below it (R24). -/
theorem State.bufBytes_storeByte (s : State) (n : Nat) (b : Byte) :
    (s.storeByte n b).bufBytes (n + 1) = s.bufBytes n ++ [b] := by
  rw [State.bufBytes_succ]
  congr 1
  · apply State.bufBytes_congr
    intro j hj
    simp [State.bufByte_storeByte, Nat.ne_of_lt hj]
  · simp [State.bufByte_storeByte]

end Sys2Proof.Machine
end

