-- ==== Sys2Proof/Laws/Exec.lean ====
section
/-! SUPPORT. What a command and a step can do, said once: the outcomes of the phase check, of a command and of a step. -/

namespace Sys2Proof.Machine

theorem whenLegal_of_mem {allowed : List Phase} {run : State → Host.Outcome State Fault Refusal} {s : State}
    (h : s.ph ∈ allowed) : whenLegal allowed run s = run s := by simp [whenLegal, h]

theorem whenLegal_of_fault {allowed : List Phase} {run : State → Host.Outcome State Fault Refusal} {s : State}
    (h : s.ph = .fault) (hn : Phase.fault ∉ allowed) : whenLegal allowed run s = .next s.answerFaulted := by
  simp [whenLegal, h, hn]

theorem whenLegal_of_not_mem {allowed : List Phase} {run : State → Host.Outcome State Fault Refusal} {s : State}
    (h : s.ph ∉ allowed) (hf : s.ph ≠ .fault) : whenLegal allowed run s = .next (s.raise .phase) := by
  simp [whenLegal, h, hf]

/-- The phases a command is legal in (10_state R34). -/
def legalPhases : Instr → List Phase
  | .rst => [.idle, .absorb, .done, .fault]
  | .rds => [.idle, .absorb, .done, .fault]
  | .seed _ => [.idle, .absorb, .done]
  | .wrb _ => [.absorb]
  | .wrk _ => [.absorb]
  | .fin => [.absorb]
  | .padq => [.absorb]
  | .rdd => [.done]
  | .rdx => [.done]

/-- The state a command leaves where nothing stops it. -/
def effect : Instr → State → State
  | .rst, s => s.clear.respond statusOk []
  | .rds, s => s.respond statusOk (bytesBe 2 s.status.toNat)
  | .seed v, s => (((s.setCval v).setCnt 0).setPhase .absorb).respond statusOk []
  | .wrb b, s => (s.appendByte b).respond statusOk []
  | .wrk blk, s => (s.absorbBlock blk).respond statusOk []
  | .fin, s => ((s.absorbFinal.setCnt 0).setPhase .done).respond statusOk []
  | .padq, s => s.respond statusOk s.padded
  | .rdd, s => s.respond statusOk (bytesBe 32 s.cval.toNat)
  | .rdx, s => s.respond statusOk (hex64 s.cval)

/-- What stops a legal command from having its effect. -/
inductive Blocked : Instr → State → Host.Outcome State Fault Refusal → Prop where
  | align (blk : List Byte) (s : State) (h : s.cnt ≠ 0) : Blocked (.wrk blk) s (.next (s.raise .align))
  | block (blk : List Byte) (s : State) (h0 : s.cnt = 0) (h : blk.length ≠ 64) :
      Blocked (.wrk blk) s (.fault .invariantViolation)
  | spill (s : State) (hp : s.spillPolicy = .refuse) (h : 56 ≤ s.cnt.toNat) :
      Blocked .fin s (.refused .spillRefused)

/-- The outcomes of a command: the three rejections of 60_exceptions R189, a stop, or its effect. -/
inductive Outcomes (i : Instr) (s : State) : Host.Outcome State Fault Refusal → Prop where
  | faulted (hp : s.ph = .fault) (hl : s.ph ∉ legalPhases i) : Outcomes i s (.next s.answerFaulted)
  | phase (hp : s.ph ≠ .fault) (hl : s.ph ∉ legalPhases i) : Outcomes i s (.next (s.raise .phase))
  | blocked {o : Host.Outcome State Fault Refusal} (hl : s.ph ∈ legalPhases i) (hb : Blocked i s o) : Outcomes i s o
  | runs (hl : s.ph ∈ legalPhases i) (ha : ∀ blk, i = .wrk blk → s.cnt = 0 ∧ blk.length = 64)
      (hs : i = .fin → s.spillPolicy = .refuse → s.cnt.toNat < 56) : Outcomes i s (.next (effect i s))

theorem whenLegal_outcomes {i : Instr} {s : State} {run : State → Host.Outcome State Fault Refusal}
    (h : s.ph ∈ legalPhases i → Outcomes i s (run s)) : Outcomes i s (whenLegal (legalPhases i) run s) := by
  by_cases hl : s.ph ∈ legalPhases i
  · rw [whenLegal_of_mem hl]; exact h hl
  · by_cases hf : s.ph = .fault
    · rw [whenLegal_of_fault hf (hf ▸ hl)]; exact .faulted hf hl
    · rw [whenLegal_of_not_mem hl hf]; exact .phase hf hl

theorem whenLegal_effect {i : Instr} (s : State) (hk : ∀ blk, i ≠ .wrk blk) (hf : i ≠ .fin) :
    Outcomes i s (whenLegal (legalPhases i) (fun s => .next (effect i s)) s) :=
  whenLegal_outcomes fun hl => .runs hl (fun blk h => absurd h (hk blk)) (fun h => absurd h hf)

/-- Everything a command can do. -/
theorem exec_outcomes (i : Instr) (s : State) : Outcomes i s (exec i s) := by
  cases i with
  | rst => exact whenLegal_effect (i := .rst) s (by simp) (by simp)
  | rds => exact whenLegal_effect (i := .rds) s (by simp) (by simp)
  | seed v => exact whenLegal_effect (i := .seed v) s (by simp) (by simp)
  | wrb b => exact whenLegal_effect (i := .wrb b) s (by simp) (by simp)
  | wrk blk =>
    refine whenLegal_outcomes (i := .wrk blk) (run := fun s =>
      if s.cnt ≠ 0 then .next (s.raise .align)
      else if blk.length ≠ Config.blockBytes then .fault .invariantViolation
      else .next ((s.absorbBlock blk).respond statusOk [])) fun hl => ?_
    by_cases hc : s.cnt = 0
    · by_cases hb : blk.length = 64
      · rw [if_neg (not_not.mpr hc), if_neg (not_not.mpr hb)]
        exact .runs (i := .wrk blk) hl (fun _ h => by cases h; exact ⟨hc, hb⟩) (fun h => nomatch h)
      · rw [if_neg (not_not.mpr hc), if_pos hb]
        exact .blocked hl (.block blk s hc hb)
    · rw [if_pos hc]
      exact .blocked hl (.align blk s hc)
  | fin =>
    refine whenLegal_outcomes (i := .fin) (run := fun s =>
      if s.spillPolicy = .refuse ∧ 56 ≤ s.cnt.toNat then .refused .spillRefused
      else .next (((s.absorbFinal.setCnt 0).setPhase .done).respond statusOk [])) fun hl => ?_
    by_cases hr : s.spillPolicy = .refuse ∧ 56 ≤ s.cnt.toNat
    · rw [if_pos hr]; exact .blocked hl (.spill s hr.1 hr.2)
    · rw [if_neg hr]
      exact .runs (i := .fin) hl (fun _ h => nomatch h) (fun _ hp => by
        by_contra hn; exact hr ⟨hp, Nat.le_of_not_lt hn⟩)
  | padq => exact whenLegal_effect (i := .padq) s (by simp) (by simp)
  | rdd => exact whenLegal_effect (i := .rdd) s (by simp) (by simp)
  | rdx => exact whenLegal_effect (i := .rdx) s (by simp) (by simp)

/-- Everything a command that answers a next state can have done. -/
inductive NextState (i : Instr) (s : State) : State → Prop where
  | faulted (hp : s.ph = .fault) (hl : s.ph ∉ legalPhases i) : NextState i s s.answerFaulted
  | phase (hp : s.ph ≠ .fault) (hl : s.ph ∉ legalPhases i) : NextState i s (s.raise .phase)
  | align (blk : List Byte) (hi : i = .wrk blk) (hp : s.ph = .absorb) (hc : s.cnt ≠ 0) :
      NextState i s (s.raise .align)
  | runs (hl : s.ph ∈ legalPhases i) (ha : ∀ blk, i = .wrk blk → s.cnt = 0 ∧ blk.length = 64)
      (hs : i = .fin → s.spillPolicy = .refuse → s.cnt.toNat < 56) : NextState i s (effect i s)

theorem exec_next {i : Instr} {s t : State} (h : exec i s = .next t) : NextState i s t := by
  have ho := exec_outcomes i s
  rw [h] at ho
  generalize hx : Host.Outcome.next t = o at ho
  cases ho with
  | faulted hp hl => cases hx; exact .faulted hp hl
  | phase hp hl => cases hx; exact .phase hp hl
  | blocked hl hb =>
    cases hb with
    | align blk s hc => cases hx; exact .align blk rfl (by simpa [legalPhases] using hl) hc
    | block => cases hx
    | spill => cases hx
  | runs hl ha hs => cases hx; exact .runs hl ha hs

/-- A legal command that is not stopped has its effect. -/
theorem exec_runs {i : Instr} {s : State} (hl : s.ph ∈ legalPhases i)
    (ha : ∀ blk, i = .wrk blk → s.cnt = 0 ∧ blk.length = 64)
    (hs : i = .fin → s.spillPolicy = .refuse → s.cnt.toNat < 56) : exec i s = .next (effect i s) := by
  have ho := exec_outcomes i s
  generalize exec i s = o at ho
  cases ho with
  | faulted _ hl' => exact absurd hl hl'
  | phase _ hl' => exact absurd hl hl'
  | blocked _ hb =>
    cases hb with
    | align blk s hc => exact absurd (ha blk rfl).1 hc
    | block blk s _ hb => exact absurd (ha blk rfl).2 hb
    | spill s hp h => exact absurd (hs rfl hp) (by omega)
  | runs => rfl

/-- In FAULT a command that is not legal there is answered E_FAULTED. -/
theorem exec_faulted {i : Instr} {s : State} (hp : s.ph = .fault) (hl : s.ph ∉ legalPhases i) :
    exec i s = .next s.answerFaulted := by
  have ho := exec_outcomes i s
  generalize exec i s = o at ho
  cases ho with
  | faulted => rfl
  | phase hn => exact absurd hp hn
  | blocked hl' => exact absurd hl' hl
  | runs hl' => exact absurd hl' hl

/-- In another phase a command that is not legal there raises E_PHASE. -/
theorem exec_phase {i : Instr} {s : State} (hp : s.ph ≠ .fault) (hl : s.ph ∉ legalPhases i) :
    exec i s = .next (s.raise .phase) := by
  have ho := exec_outcomes i s
  generalize exec i s = o at ho
  cases ho with
  | faulted hn => exact absurd hn hp
  | phase => rfl
  | blocked hl' => exact absurd hl' hl
  | runs hl' => exact absurd hl' hl

/-- WRK with bytes buffered raises E_ALIGN. -/
theorem exec_wrk_align {blk : List Byte} {s : State} (hp : s.ph = .absorb) (hc : s.cnt ≠ 0) :
    exec (.wrk blk) s = .next (s.raise .align) := by
  have hl : s.ph ∈ legalPhases (.wrk blk) := by simp [legalPhases, hp]
  have ho := exec_outcomes (.wrk blk) s
  generalize exec (.wrk blk) s = o at ho
  cases ho with
  | faulted _ hn => exact absurd hl hn
  | phase _ hn => exact absurd hl hn
  | blocked _ hb =>
    cases hb with
    | align => rfl
    | block _ _ h0 => exact absurd h0 hc
  | runs _ ha => exact absurd (ha blk rfl).1 hc

/-- A transaction that decodes to no command is rejected (60_exceptions R189). -/
theorem State.rejectTransaction_of_fault {s : State} (h : s.ph = .fault) (e : Error) :
    s.rejectTransaction e = s.answerFaulted := by simp [State.rejectTransaction, h]

theorem State.rejectTransaction_of_not_fault {s : State} (h : s.ph ≠ .fault) (e : Error) :
    s.rejectTransaction e = s.raise e := by simp [State.rejectTransaction, h]

/-- The step on a port whose next input is a transaction. -/
theorem step_transaction {s : State} {t : List Byte} {rest : List PortInput} (h : s.port = .transaction t :: rest) :
    step s = match decode t with
      | .illegal => .next ((s.setPort rest).rejectTransaction .illegal)
      | .badLength => .next ((s.setPort rest).rejectTransaction .length)
      | .command i => exec i (s.setPort rest) := by
  unfold step
  rw [h]
  rfl

/-- Everything a step can do. -/
inductive Steps (s : State) : Host.Outcome State Fault Refusal → Prop where
  | waits (h : takeInput s.port = .waiting) : Steps s (.next s)
  | reset (rest : List PortInput) (h : takeInput s.port = .reset rest) : Steps s (.next (s.setPort rest).hardwareReset)
  | reject (t : List Byte) (rest : List PortInput) (e : Error) (h : takeInput s.port = .command t rest)
      (hd : decode t = .illegal ∧ e = .illegal ∨ decode t = .badLength ∧ e = .length) :
      Steps s (.next ((s.setPort rest).rejectTransaction e))
  | command (t : List Byte) (rest : List PortInput) (i : Instr) (h : takeInput s.port = .command t rest)
      (hd : decode t = .command i) : Steps s (exec i (s.setPort rest))

theorem step_steps (s : State) : Steps s (step s) := by
  unfold step
  split
  · exact .waits ‹_›
  · exact .reset _ ‹_›
  · split
    · exact .reject _ _ _ ‹_› (.inl ⟨‹_›, rfl⟩)
    · exact .reject _ _ _ ‹_› (.inr ⟨‹_›, rfl⟩)
    · exact .command _ _ _ ‹_› ‹_›

/-- Only a whole transaction is taken as a command. -/
theorem takeInput_eq_command {p rest : List PortInput} {t : List Byte} (h : takeInput p = .command t rest) :
    p = .transaction t :: rest := by
  unfold takeInput at h
  split at h <;> first | (cases h; rfl) | cases h

end Sys2Proof.Machine
end

