-- ==== Sys2Proof/Laws/Driver.lean ====
section
/-! SUPPORT. What compressing a list of blocks, appending a byte and finishing a stream leave in each field
(42_driver_commands R141, R143). -/

namespace Sys2Proof.Machine

/-- Blocks compressed in order, with their events. -/
theorem foldl_absorbBlock (qs : List (List Byte)) (s : State) :
    qs.foldl State.absorbBlock s =
      { s.setCval (qs.foldl (fun cv q => compress q cv) s.cval) with trace := s.trace ++ compressEvents s.cval qs } := by
  induction qs generalizing s with
  | nil =>
    simp only [List.foldl_nil, compressEvents, List.append_nil, State.setCval, laneOf_cval_zero, laneOf_cval_one,
      laneOf_cval_two, laneOf_cval_three]
  | cons q qs ih =>
    rw [List.foldl_cons, ih]
    simp only [List.foldl_cons, compressEvents, State.absorbBlock_cval, State.absorbBlock_trace, List.append_assoc,
      List.singleton_append]
    rfl

theorem foldl_absorbBlock_cval (qs : List (List Byte)) (s : State) :
    (qs.foldl State.absorbBlock s).cval = qs.foldl (fun cv q => compress q cv) s.cval := by
  rw [foldl_absorbBlock]; exact joinLanes_laneOf _

theorem foldl_absorbBlock_trace (qs : List (List Byte)) (s : State) :
    (qs.foldl State.absorbBlock s).trace = s.trace ++ compressEvents s.cval qs := by rw [foldl_absorbBlock]

theorem foldl_absorbBlock_buf (qs : List (List Byte)) (s : State) :
    (qs.foldl State.absorbBlock s).buf = s.buf := by rw [foldl_absorbBlock]; rfl

theorem foldl_absorbBlock_cnt (qs : List (List Byte)) (s : State) :
    (qs.foldl State.absorbBlock s).cnt = s.cnt := by rw [foldl_absorbBlock]; rfl

theorem foldl_absorbBlock_ph (qs : List (List Byte)) (s : State) :
    (qs.foldl State.absorbBlock s).ph = s.ph := by rw [foldl_absorbBlock]; rfl

theorem foldl_absorbBlock_errc (qs : List (List Byte)) (s : State) :
    (qs.foldl State.absorbBlock s).errc = s.errc := by rw [foldl_absorbBlock]; rfl

theorem foldl_absorbBlock_port (qs : List (List Byte)) (s : State) :
    (qs.foldl State.absorbBlock s).port = s.port := by rw [foldl_absorbBlock]; rfl

theorem foldl_absorbBlock_responses (qs : List (List Byte)) (s : State) :
    (qs.foldl State.absorbBlock s).responses = s.responses := by rw [foldl_absorbBlock]; rfl

theorem foldl_absorbBlock_spillPolicy (qs : List (List Byte)) (s : State) :
    (qs.foldl State.absorbBlock s).spillPolicy = s.spillPolicy := by rw [foldl_absorbBlock]; rfl

theorem foldl_absorbBlock_draws (qs : List (List Byte)) (s : State) :
    (qs.foldl State.absorbBlock s).draws = s.draws := by rw [foldl_absorbBlock]; rfl

/-- Below 63 bytes WRB stores and counts. -/
theorem State.appendByte_of_lt {s : State} (b : Byte) (h : s.cnt.toNat < 63) :
    s.appendByte b = (s.storeByte s.cnt.toNat b).setCnt (s.cnt + 1) := by
  simp only [State.appendByte, if_pos h]

/-- The 64th byte completes a block, which is the 63 bytes before it and the byte itself. -/
theorem State.appendByte_of_full {s : State} (b : Byte) (h : s.cnt.toNat = 63) :
    s.appendByte b = ((s.storeByte 63 b).absorbBlock (s.bufBytes 63 ++ [b])).setCnt 0 := by
  have hn : ¬ s.cnt.toNat < 63 := by omega
  rw [← State.bufBytes_storeByte, State.appendByte, if_neg hn, h]

theorem State.cnt_lt_or_full (s : State) : s.cnt.toNat < 63 ∨ s.cnt.toNat = 63 := by
  have := s.cnt.isLt
  omega

@[simp] theorem State.appendByte_ph (s : State) (b : Byte) : (s.appendByte b).ph = s.ph := by
  unfold State.appendByte; dsimp only; split <;> simp

@[simp] theorem State.appendByte_errc (s : State) (b : Byte) : (s.appendByte b).errc = s.errc := by
  unfold State.appendByte; dsimp only; split <;> simp

@[simp] theorem State.appendByte_port (s : State) (b : Byte) : (s.appendByte b).port = s.port := by
  unfold State.appendByte; dsimp only; split <;> simp

@[simp] theorem State.appendByte_responses (s : State) (b : Byte) : (s.appendByte b).responses = s.responses := by
  unfold State.appendByte; dsimp only; split <;> simp

@[simp] theorem State.appendByte_spillPolicy (s : State) (b : Byte) : (s.appendByte b).spillPolicy = s.spillPolicy := by
  unfold State.appendByte; dsimp only; split <;> simp

@[simp] theorem State.appendByte_draws (s : State) (b : Byte) : (s.appendByte b).draws = s.draws := by
  unfold State.appendByte; dsimp only; split <;> simp

@[simp] theorem State.appendByte_buf (s : State) (b : Byte) : (s.appendByte b).buf = s.buf.write s.cnt.toNat b := by
  unfold State.appendByte; dsimp only; split <;> simp

/-- WRB counts modulo 64 (20_memory R45). -/
@[simp] theorem State.appendByte_cnt (s : State) (b : Byte) : (s.appendByte b).cnt = s.cnt + 1 := by
  rcases s.cnt_lt_or_full with h | h
  · rw [State.appendByte_of_lt b h]; rfl
  · rw [State.appendByte_of_full b h]
    apply BitVec.eq_of_toNat_eq
    simp [BitVec.toNat_add, h]

theorem State.absorbFinal_of_zero {s : State} (h : s.cnt = 0) : s.absorbFinal = s := if_pos h

theorem State.absorbFinal_of_ne {s : State} (h : s.cnt ≠ 0) :
    s.absorbFinal = (blocksOf s.padded).foldl State.absorbBlock (s.emit (.pad s.cnt.toNat)) := if_neg h

@[simp] theorem State.absorbFinal_buf (s : State) : s.absorbFinal.buf = s.buf := by
  by_cases h : s.cnt = 0
  · rw [State.absorbFinal_of_zero h]
  · rw [State.absorbFinal_of_ne h, foldl_absorbBlock_buf, State.emit_buf]

@[simp] theorem State.absorbFinal_cnt (s : State) : s.absorbFinal.cnt = s.cnt := by
  by_cases h : s.cnt = 0
  · rw [State.absorbFinal_of_zero h]
  · rw [State.absorbFinal_of_ne h, foldl_absorbBlock_cnt, State.emit_cnt]

@[simp] theorem State.absorbFinal_ph (s : State) : s.absorbFinal.ph = s.ph := by
  by_cases h : s.cnt = 0
  · rw [State.absorbFinal_of_zero h]
  · rw [State.absorbFinal_of_ne h, foldl_absorbBlock_ph, State.emit_ph]

@[simp] theorem State.absorbFinal_errc (s : State) : s.absorbFinal.errc = s.errc := by
  by_cases h : s.cnt = 0
  · rw [State.absorbFinal_of_zero h]
  · rw [State.absorbFinal_of_ne h, foldl_absorbBlock_errc, State.emit_errc]

@[simp] theorem State.absorbFinal_port (s : State) : s.absorbFinal.port = s.port := by
  by_cases h : s.cnt = 0
  · rw [State.absorbFinal_of_zero h]
  · rw [State.absorbFinal_of_ne h, foldl_absorbBlock_port, State.emit_port]

@[simp] theorem State.absorbFinal_responses (s : State) : s.absorbFinal.responses = s.responses := by
  by_cases h : s.cnt = 0
  · rw [State.absorbFinal_of_zero h]
  · rw [State.absorbFinal_of_ne h, foldl_absorbBlock_responses, State.emit_responses]

@[simp] theorem State.absorbFinal_spillPolicy (s : State) : s.absorbFinal.spillPolicy = s.spillPolicy := by
  by_cases h : s.cnt = 0
  · rw [State.absorbFinal_of_zero h]
  · rw [State.absorbFinal_of_ne h, foldl_absorbBlock_spillPolicy, State.emit_spillPolicy]

@[simp] theorem State.absorbFinal_draws (s : State) : s.absorbFinal.draws = s.draws := by
  by_cases h : s.cnt = 0
  · rw [State.absorbFinal_of_zero h]
  · rw [State.absorbFinal_of_ne h, foldl_absorbBlock_draws, State.emit_draws]

theorem State.absorbFinal_cval (s : State) : s.absorbFinal.cval =
    if s.cnt = 0 then s.cval else (blocksOf s.padded).foldl (fun cv q => compress q cv) s.cval := by
  by_cases h : s.cnt = 0
  · rw [State.absorbFinal_of_zero h, if_pos h]
  · rw [State.absorbFinal_of_ne h, foldl_absorbBlock_cval, State.emit_cval, if_neg h]

theorem State.absorbFinal_trace (s : State) : s.absorbFinal.trace =
    s.trace ++ if s.cnt = 0 then [] else .pad s.cnt.toNat :: compressEvents s.cval (blocksOf s.padded) := by
  by_cases h : s.cnt = 0
  · rw [State.absorbFinal_of_zero h, if_pos h, List.append_nil]
  · rw [State.absorbFinal_of_ne h, foldl_absorbBlock_trace, State.emit_trace, State.emit_cval, if_neg h]
    simp

/-- Two states with the same fields are the same. -/
theorem State.eq_of_fields {s t : State} (hv : s.cval = t.cval) (hb : s.buf = t.buf) (hc : s.cnt = t.cnt)
    (hp : s.ph = t.ph) (he : s.errc = t.errc) (hi : s.port = t.port) (hr : s.responses = t.responses)
    (ht : s.trace = t.trace) (hs : s.spillPolicy = t.spillPolicy) (hd : s.draws = t.draws) : s = t := by
  have h0 : s.cv0 = t.cv0 := by rw [← laneOf_cval_zero s, hv, laneOf_cval_zero]
  have h1 : s.cv1 = t.cv1 := by rw [← laneOf_cval_one s, hv, laneOf_cval_one]
  have h2 : s.cv2 = t.cv2 := by rw [← laneOf_cval_two s, hv, laneOf_cval_two]
  have h3 : s.cv3 = t.cv3 := by rw [← laneOf_cval_three s, hv, laneOf_cval_three]
  cases s; cases t; simp_all

end Sys2Proof.Machine
end

