-- ==== Sys2Proof/Laws/Padding.lean ====
section
/-! SUPPORT. The bit sequences of bytes (00_scope R13) and the loop of the padder (40_padder R100). -/

namespace Sys2Proof.Machine

theorem bits_cons (b : Byte) (s : List Byte) : bits (b :: s) = byteBits b ++ bits s := by simp [bits]

theorem bits_append (s t : List Byte) : bits (s ++ t) = bits s ++ bits t := by simp [bits]

theorem length_bits (s : List Byte) : (bits s).length = 8 * s.length := by
  induction s with
  | nil => rfl
  | cons b s ih =>
    rw [bits_cons, List.length_append, ih, List.length_cons]
    simp only [byteBits, List.length_cons, List.length_nil]
    omega

theorem ofBits_byteBits : ∀ b : Byte, BitVec.ofNat 8 (ofBits (byteBits b)) = b := by decide

theorem unbits_byteBits_append (b : Byte) (q : List Bool) : unbits (byteBits b ++ q) = b :: unbits q := by
  rw [byteBits]
  simp only [List.cons_append, List.nil_append, unbits]
  congr 1
  exact ofBits_byteBits b

/-- Regrouping takes the bytes off the front, one by one. -/
theorem unbits_bits_append (s : List Byte) (q : List Bool) : unbits (bits s ++ q) = s ++ unbits q := by
  induction s with
  | nil => rfl
  | cons b s ih => rw [bits_cons, List.append_assoc, unbits_byteBits_append, ih, List.cons_append]

theorem bits_zeros (n : Nat) : bits (List.replicate n 0x00#8) = List.replicate (8 * n) false := by
  induction n with
  | zero => rfl
  | succ n ih =>
    rw [List.replicate_succ, bits_cons, ih, show 8 * (n + 1) = 8 + 8 * n by ring, ← List.replicate_append_replicate]
    rfl

theorem bitsBe_append (n m v : Nat) : bitsBe (n + m) v = bitsBe n (v / 2 ^ m) ++ bitsBe m v := by
  induction n with
  | zero => simp [bitsBe]
  | succ n ih =>
    rw [show n + 1 + m = (n + m) + 1 by omega]
    simp only [bitsBe, List.cons_append, ih]
    congr 1
    rw [Nat.testBit_div_two_pow, Nat.add_comm]

theorem bitsBe_eight (v : Nat) : bitsBe 8 v = byteBits (BitVec.ofNat 8 v) := by
  simp only [bitsBe, byteBits, BitVec.getLsbD_ofNat]
  simp

/-- The two ways from a number to bits: by way of its bytes, and straight. -/
theorem bits_bytesBe (n v : Nat) : bits (bytesBe n v) = bitsBe (8 * n) v := by
  induction n with
  | zero => rfl
  | succ n ih =>
    have hpow : (256 : Nat) ^ n = 2 ^ (8 * n) := by rw [show (256 : Nat) = 2 ^ 8 by norm_num, ← pow_mul]
    rw [show 8 * (n + 1) = 8 + 8 * n by ring, bitsBe_append, ← ih, bitsBe_eight, bytesBe, bits_cons, hpow]

/-- The loop appends the least number of zeros that makes the length fit, if its fuel lasts that long. -/
theorem padZeros_eq {z fuel : Nat} {q : List Bool} (hf : z ≤ fuel) (hz : (q.length + z + 64) % 512 = 0)
    (hmin : ∀ y, y < z → (q.length + y + 64) % 512 ≠ 0) : padZeros fuel q = q ++ List.replicate z false := by
  induction z generalizing fuel q with
  | zero =>
    cases fuel with
    | zero => simp [padZeros]
    | succ f =>
      simp only [padZeros]
      rw [if_pos (by simpa using hz)]
      simp
  | succ z ih =>
    cases fuel with
    | zero => omega
    | succ f =>
      simp only [padZeros]
      rw [if_neg (by simpa using hmin 0 (by omega)), ih (q := q ++ [false]) (by omega)]
      · rw [List.append_assoc]; congr 1
      · rw [← hz]; simp; congr 1; omega
      · intro y hy hc
        apply hmin (y + 1) (by omega)
        rw [← hc]; simp; congr 1; omega

/-- `pad` on the length of its argument (R102). -/
theorem length_pad (m : List Byte) : (pad m).length = m.length + padZeroBytes m.length + 9 := by
  simp [pad]; omega

end Sys2Proof.Machine
end

