-- ==== Sys2Proof/Laws/Absorb.lean ====
section
/-! SUPPORT. What a state in ABSORB says of the stream bytes absorbed since SEED, and how SEED, WRB and WRK carry it on
(42_driver_commands R142). -/

namespace Sys2Proof.Machine

theorem blocksOf_nil : blocksOf [] = [] := blocksOf_of_lt (by simp)

theorem compressEvents_append (qs qs' : List (List Byte)) (cv : U256) :
    compressEvents cv (qs ++ qs') =
      compressEvents cv qs ++ compressEvents (qs.foldl (fun cv q => compress q cv) cv) qs' := by
  induction qs generalizing cv with
  | nil => rfl
  | cons q qs ih => simp only [List.cons_append, compressEvents, List.foldl_cons, ih]

/-- The core has absorbed the bytes `S` since a SEED of `cv0`, with the events `earlier` before it. -/
structure Absorbed (cv0 : U256) (earlier : List Event) (S : List Byte) (s : State) : Prop where
  ph : s.ph = .absorb
  cval : s.cval = (blocksOf S).foldl (fun cv q => compress q cv) cv0
  cnt : s.cnt.toNat = S.length % 64
  bytes : s.bufBytes (S.length % 64) = S.drop (64 * (S.length / 64))
  trace : s.trace = earlier ++ compressEvents cv0 (blocksOf S)

/-- SEED begins the stream (42_driver_commands R140). -/
theorem Absorbed.seed (s : State) (v : U256) : Absorbed v s.trace [] (effect (.seed v) s) :=
  ⟨rfl, by rw [blocksOf_nil]; exact joinLanes_laneOf v, rfl, rfl, by rw [blocksOf_nil]; simp [effect, compressEvents]⟩

/-- WRB carries the stream on by one byte (42_driver_commands R141). -/
theorem Absorbed.wrb {cv0 : U256} {earlier : List Event} {S : List Byte} {s : State} (h : Absorbed cv0 earlier S s)
    (b : Byte) : Absorbed cv0 earlier (S ++ [b]) ((s.appendByte b).respond statusOk []) := by
  obtain ⟨a, r, hS, ha, hr, hla, hlr, hbl⟩ := exists_blocks_and_rest S
  have hb := h.bytes
  rw [← hr] at hb
  have hcnt := h.cnt
  rcases s.cnt_lt_or_full with hc | hc
  · have hm : (S.length + 1) % 64 = S.length % 64 + 1 := by omega
    have hdv : (S.length + 1) / 64 = S.length / 64 := by omega
    have hbl2 : blocksOf (S ++ [b]) = blocksOf S := by
      rw [hbl, hS, List.append_assoc, blocksOf_append_short _ _ (by omega),
        blocksOf_of_lt (p := r ++ [b]) (by simp; omega), List.append_nil]
    rw [State.appendByte_of_lt b hc]
    refine ⟨h.ph, ?_, ?_, ?_, ?_⟩
    · rw [hbl2]; exact h.cval
    · simp [BitVec.toNat_add, hcnt]
    · rw [List.length_append, List.length_singleton, hm, hdv]
      have e : ∀ (x : State) n a c m, ((x.setCnt n).respond a c).bufBytes m = x.bufBytes m := fun _ _ _ _ _ => rfl
      rw [e, hcnt, State.bufBytes_storeByte, hb, hr, List.drop_append_of_le_length (by omega)]
    · rw [hbl2]; exact h.trace
  · have hm : (S.length + 1) % 64 = 0 := by omega
    have hl : (r ++ [b]).length = 64 := by simp; omega
    have hbl2 : blocksOf (S ++ [b]) = blocksOf S ++ [r ++ [b]] := by
      rw [hbl, hS, List.append_assoc, blocksOf_append_short _ _ (by omega), blocksOf_block hl]
    have h63 : s.bufBytes 63 = r := by rw [← hb]; congr 1; omega
    rw [State.appendByte_of_full b hc, h63]
    refine ⟨h.ph, ?_, ?_, ?_, ?_⟩
    · simp only [State.respond_cval, State.setCnt_cval, State.absorbBlock_cval, State.storeByte_cval]
      rw [hbl2, List.foldl_append, h.cval]; rfl
    · simp [hm]
    · rw [List.length_append, List.length_singleton, hm]
      have : (S ++ [b]).drop (64 * ((S.length + 1) / 64)) = [] := List.drop_eq_nil_of_le (by simp; omega)
      rw [this]; rfl
    · simp only [State.respond_trace, State.setCnt_trace, State.absorbBlock_trace, State.storeByte_trace,
        State.storeByte_cval]
      rw [hbl2, compressEvents_append, h.trace, h.cval, List.append_assoc]; rfl

/-- WRK on a block boundary carries it on by one block (41_compressor R135). -/
theorem Absorbed.wrk {cv0 : U256} {earlier : List Event} {S : List Byte} {s : State} (h : Absorbed cv0 earlier S s)
    (q : List Byte) (hq : q.length = 64) (hc : s.cnt = 0) :
    Absorbed cv0 earlier (S ++ q) ((s.absorbBlock q).respond statusOk []) := by
  have hcnt := h.cnt
  rw [hc] at hcnt
  have hcnt : S.length % 64 = 0 := hcnt.symm
  have hbl2 : blocksOf (S ++ q) = blocksOf S ++ [q] := by
    rw [blocksOf_append_short _ _ hcnt, blocksOf_block hq]
  refine ⟨h.ph, ?_, ?_, ?_, ?_⟩
  · simp only [State.respond_cval, State.absorbBlock_cval]
    rw [hbl2, List.foldl_append, h.cval]; rfl
  · simp [hc]; omega
  · have : (S ++ q).drop (64 * ((S ++ q).length / 64)) = [] := List.drop_eq_nil_of_le (by simp; omega)
    have h2 : (S ++ q).length % 64 = 0 := by simp; omega
    rw [this, h2]; rfl
  · simp only [State.respond_trace, State.absorbBlock_trace]
    rw [hbl2, compressEvents_append, h.trace, h.cval, List.append_assoc]; rfl

/-- A sequence of commands in two parts. -/
theorem execAll_append (xs ys : List Instr) (s : State) :
    execAll (xs ++ ys) s = match execAll xs s with
    | .next t => execAll ys t
    | .fault r => .fault r
    | .refused r => .refused r := by
  induction xs generalizing s with
  | nil => rfl
  | cons x xs ih =>
    simp only [List.cons_append, execAll]
    cases exec x s with
    | next t => simp only [ih]
    | fault r => rfl
    | refused r => rfl

end Sys2Proof.Machine
end

