-- ==== Sys2Proof/Laws/PerInstr.lean ====
section
/-! SUPPORT. One statement per command about its transaction, and its lemma for each constructor of `Instr`. -/

namespace Sys2Proof.Laws.Framing

/-- The transaction of a well-formed command has its opcode in byte 0 and the length of its format (30_encoding R61,
R62). -/
def Statement (i : Instr) : Prop :=
  i.wellFormed = true → (encode i).head? = some i.opcode.byte ∧ (encode i).length = i.opcode.length

theorem rst : Statement .rst := fun _ => ⟨rfl, rfl⟩

theorem rds : Statement .rds := fun _ => ⟨rfl, rfl⟩

theorem seed (v : U256) : Statement (.seed v) := fun _ =>
  ⟨rfl, by simp [encode, Instr.payload, Instr.opcode, Opcode.length]⟩

theorem wrb (b : Byte) : Statement (.wrb b) := fun _ => ⟨rfl, rfl⟩

theorem wrk (blk : List Byte) : Statement (.wrk blk) := fun h =>
  ⟨rfl, by
    have hb : blk.length = 64 := by simpa [Instr.wellFormed] using h
    simp [encode, Instr.payload, Instr.opcode, Opcode.length, hb]⟩

theorem fin : Statement .fin := fun _ => ⟨rfl, rfl⟩

theorem padq : Statement .padq := fun _ => ⟨rfl, rfl⟩

theorem rdd : Statement .rdd := fun _ => ⟨rfl, rfl⟩

theorem rdx : Statement .rdx := fun _ => ⟨rfl, rfl⟩

end Sys2Proof.Laws.Framing
end

