-- ==== Sys2Proof/Tests/Slice0.lean ====
section
/-! SUPPORT. Tests against the spec's own worked examples and vectors (95_test_vectors and the examples of the rules),
and for each statement with hypotheses a witness that meets them. -/

namespace Sys2Proof.Tests

open Sys2Proof.Machine

-- ---------------------------------------------------------------- small states

/-- A core in phase `p` that has buffered the bytes `m` and holds the chaining value `v`. -/
def core (p : Phase) (m : List Byte) (v : U256) : State :=
  { State.reset with
    ph := p
    errc := if p = .fault then 0x03#8 else 0x00#8
    cnt := BitVec.ofNat 6 m.length
    buf := (List.range m.length).zip m
    cv0 := laneOf v 0
    cv1 := laneOf v 1
    cv2 := laneOf v 2
    cv3 := laneOf v 3 }

/-- The same core with one transaction on its port. -/
def sent (t : List Byte) (s : State) : State := { s with port := [.transaction t] }

/-- The bytes `a, a+1, …`, `n` of them. -/
def upFrom (a n : Nat) : List Byte := (List.range n).map fun j => BitVec.ofNat 8 (a + j)

/-- What an outcome that is a next state says of it. -/
def next (o : Host.Outcome State Fault Refusal) (P : State → Bool) : Bool :=
  match o with
  | .next t => P t
  | .fault _ => false
  | .refused _ => false

/-- The seed of 42_driver_commands R140's worked example. -/
def exampleSeed : U256 := 0x0123456789abcdeffedcba98765432100f1e2d3c4b5a69788796a5b4c3d2e1f0#256

-- ---------------------------------------------------------------- well-formedness

/-- The one ill-formed shape: a block of 63 or 65 bytes is refused by the check, one of 64 is not (20_memory R44). -/
theorem test_wellFormed_wrk :
    Instr.wellFormed (.wrk (upFrom 0 63)) = false ∧ Instr.wellFormed (.wrk (upFrom 0 65)) = false ∧
    Instr.wellFormed (.wrk (upFrom 0 64)) = true := by decide

-- ---------------------------------------------------------------- decoding (95_test_vectors T1 to T29)

theorem test_decode_control : decode [0x10#8] = .command .rst ∧ decode [0x11#8] = .command .rds := by decide

theorem test_decode_seed :
    decode [0x20#8, 0x01#8, 0x23#8, 0x45#8, 0x67#8, 0x89#8, 0xab#8, 0xcd#8, 0xef#8, 0xfe#8, 0xdc#8, 0xba#8, 0x98#8,
      0x76#8, 0x54#8, 0x32#8, 0x10#8, 0x0f#8, 0x1e#8, 0x2d#8, 0x3c#8, 0x4b#8, 0x5a#8, 0x69#8, 0x78#8, 0x87#8, 0x96#8,
      0xa5#8, 0xb4#8, 0xc3#8, 0xd2#8, 0xe1#8, 0xf0#8] = .command (.seed exampleSeed) := by decide

theorem test_decode_wrb :
    decode [0x30#8, 0x41#8] = .command (.wrb 0x41#8) ∧ decode [0x30#8, 0x00#8] = .command (.wrb 0x00#8) ∧
    decode [0x30#8, 0xff#8] = .command (.wrb 0xff#8) := by decide

/-- T8, with the two parts it gives. -/
theorem test_decode_wrk :
    decode (0x31#8 :: upFrom 0 64) = .command (.wrk (upFrom 0 64)) ∧
    part (upFrom 0 64) 0 = 0x000102030405060708090a0b0c0d0e0f#128 ∧
    part (upFrom 0 64) 3 = 0x303132333435363738393a3b3c3d3e3f#128 := by decide

theorem test_decode_driver_and_padder :
    decode [0x40#8] = .command .fin ∧ decode [0x41#8] = .command .padq ∧ decode [0x50#8] = .command .rdd ∧
    decode [0x51#8] = .command .rdx := by decide

/-- T13 to T21. -/
theorem test_decode_illegal :
    decode [] = .illegal ∧ decode [0x00#8] = .illegal ∧ decode [0xff#8] = .illegal ∧ decode [0x12#8] = .illegal ∧
    decode (0x21#8 :: List.replicate 32 0x00#8) = .illegal ∧ decode [0x32#8, 0x00#8] = .illegal ∧
    decode [0x42#8] = .illegal ∧ decode [0x52#8] = .illegal ∧ decode [0x0f#8, 0x10#8] = .illegal := by decide

/-- T22 to T29. -/
theorem test_decode_badLength :
    decode [0x10#8, 0x00#8] = .badLength ∧ decode [0x40#8, 0x00#8] = .badLength ∧ decode [0x30#8] = .badLength ∧
    decode [0x30#8, 0x41#8, 0x42#8] = .badLength ∧ decode (0x20#8 :: List.replicate 31 0x00#8) = .badLength ∧
    decode (0x20#8 :: List.replicate 33 0x00#8) = .badLength ∧ decode (0x31#8 :: upFrom 0 63) = .badLength ∧
    decode (0x31#8 :: upFrom 0 65) = .badLength := by decide

-- ---------------------------------------------------------------- padder, compressor and digit tables

/-- T34 to T36: the last input that fits one block, the first that spills, and 63 bytes of 0xff. -/
theorem test_pad :
    pad (upFrom 0 55) = upFrom 0 55 ++ [0x80#8, 0x00#8, 0x00#8, 0x00#8, 0x00#8, 0x00#8, 0x00#8, 0x01#8, 0xb8#8] ∧
    pad (upFrom 0 56) = upFrom 0 56 ++ 0x80#8 :: List.replicate 69 0x00#8 ++ [0x01#8, 0xc0#8] ∧
    pad (List.replicate 63 0xff#8) =
      List.replicate 63 0xff#8 ++ 0x80#8 :: List.replicate 62 0x00#8 ++ [0x01#8, 0xf8#8] := by decide

/-- T31 by the bit-level procedure. -/
theorem test_padByBits : padByBits [0x41#8] = [0x41#8, 0x80#8] ++ List.replicate 61 0x00#8 ++ [0x08#8] :=
  by decide +kernel

/-- T41, T46 and T47. -/
theorem test_rotl128 :
    rotl128 0x20000000000000000000000000000000#128 3 = 1 ∧
    rotl128 0x0123456789abcdeffedcba9876543210#128 3 = 0x091a2b3c4d5e6f7ff6e5d4c3b2a19080#128 ∧
    rotl128 0x000102030405060708090a0b0c0d0e0f#128 3 = 0x00081018202830384048505860687078#128 := by decide

/-- CB: lane 3 adds the old lane 0. -/
theorem test_compress_lanes :
    compress (List.replicate 64 0x00#8) (joinLanes 1 2 3 4) = joinLanes 0x3 0x7 0xd 0x11 := by decide

/-- CF: four distinct parts and lanes. -/
theorem test_compress_general :
    compress (upFrom 0 64) exampleSeed =
      0xd5c531a9a80e2d59536dee425527687037ab0011025a232806b95a8de2725ff9#256 := by decide

/-- T77: 65 bytes, one direct compression and one padded one. -/
theorem test_digestBytes :
    digestBytes (upFrom 0 65) exampleSeed =
      0xad18ba3438da7629ed9e4b3a5ee1122871d76914be81a9b97f3e984fa080fee8#256 := by decide

-- ---------------------------------------------------------------- one step of each command

/-- 43_control_commands R170: RST in FAULT answers 00 and leads to IDLE. -/
theorem test_rst : next (step (sent [0x10#8] (core .fault [0x61#8] 7))) (fun t =>
    t.ph == .idle && t.errc == 0x00#8 && t.cnt == 0 && t.responses == [[0x00#8]]) = true := by decide

/-- R170: a malformed RST resets nothing. -/
theorem test_rst_malformed : next (step (sent [0x10#8, 0x00#8] (core .absorb [0x61#8] 7))) (fun t =>
    t.ph == .fault && t.errc == 0x02#8 && t.cnt == 1 && t.responses == [[0x02#8]]) = true := by decide

/-- R171: after SEED and three WRBs, RDS answers 00 43 00. -/
theorem test_rds : next (step (sent [0x11#8] (core .absorb [0x61#8, 0x62#8, 0x63#8] 0))) (fun t =>
    t.responses == [[0x00#8, 0x43#8, 0x00#8]] && t.ph == .absorb && t.cnt == 3) = true := by decide

/-- The last row of the STATUS table of 95_test_vectors, with ERRC = 03 here. -/
theorem test_rds_faulted : next (step (sent [0x11#8] (core .fault (upFrom 0 63) 0))) (fun t =>
    t.responses == [[0x00#8, 0xff#8, 0x03#8]] && t.ph == .fault) = true := by decide

/-- 42_driver_commands R140: the lanes of the example, from DONE. -/
theorem test_seed : next (exec (.seed exampleSeed) (core .done [] 9)) (fun t =>
    t.cv0 == 0x0123456789abcdef#64 && t.cv1 == 0xfedcba9876543210#64 && t.cv2 == 0x0f1e2d3c4b5a6978#64 &&
    t.cv3 == 0x8796a5b4c3d2e1f0#64 && t.ph == .absorb && t.responses == [[0x00#8]]) = true := by decide

/-- R140: SEED in ABSORB discards the buffered bytes. -/
theorem test_seed_restarts : next (exec (.seed 1) (core .absorb [0x61#8] 9)) (fun t =>
    t.cnt == 0 && t.cval == 1 && t.trace == []) = true := by decide

/-- 42_driver_commands R141 with the block of CF: the 64th byte compresses. -/
theorem test_wrb_completes : next (exec (.wrb 0x3f#8) (core .absorb (upFrom 0 63) exampleSeed)) (fun t =>
    t.cval == 0xd5c531a9a80e2d59536dee425527687037ab0011025a232806b95a8de2725ff9#256 && t.cnt == 0 &&
    t.ph == .absorb) = true := by decide

/-- R141: WRB in IDLE raises E_PHASE and stores nothing. -/
theorem test_wrb_idle : next (exec (.wrb 0x41#8) State.reset) (fun t =>
    t.ph == .fault && t.errc == 0x03#8 && t.buf == [] && t.responses == [[0x03#8]]) = true := by decide

/-- 41_compressor R135: 64 zero bytes with CVAL = 1. -/
theorem test_wrk : next (exec (.wrk (List.replicate 64 0x00#8)) (core .absorb [] 1)) (fun t =>
    t.cv0 == 0 && t.cv1 == 0 && t.cv2 == 1 && t.cv3 == 1 && t.cnt == 0) = true := by decide

/-- 60_exceptions R184: WRK with one byte buffered; the lanes and the count stay. -/
theorem test_wrk_align : next (exec (.wrk (List.replicate 64 0x00#8)) (core .absorb [0x61#8] 1)) (fun t =>
    t.ph == .fault && t.errc == 0x04#8 && t.cnt == 1 && t.cval == 1 && t.responses == [[0x04#8]]) = true := by decide

/-- 42_driver_commands R143 (T72): seed 1 and the byte 41. -/
theorem test_fin : next (exec .fin (core .absorb [0x41#8] 1)) (fun t =>
    t.cval == 0x0c00000000000004000000000000000000000000000000010000000000001081#256 && t.ph == .done && t.cnt == 0 &&
    t.trace.length == 2) = true := by decide

/-- R146 (T80): 63 bytes spill into two blocks. -/
theorem test_fin_spills : next (exec .fin (core .absorb (List.replicate 63 0xff#8) 0)) (fun t =>
    t.cval == 0xfffffffffffffffafffffffffffffffafffffffffff037caffffff06f579df3a#256 && t.ph == .done &&
    t.trace.length == 3) = true := by decide +kernel

/-- 40_padder R108: the padding of one byte 41. -/
theorem test_padq : next (exec .padq (core .absorb [0x41#8] 0)) (fun t =>
    t.responses == [[0x00#8, 0x41#8, 0x80#8] ++ List.replicate 61 0x00#8 ++ [0x08#8]] && t.cnt == 1 &&
    t.trace == []) = true := by decide

/-- R108: nothing buffered, the only way to see the padding of no bytes (T30). -/
theorem test_padq_empty : next (exec .padq (core .absorb [] 0)) (fun t =>
    t.responses == [[0x00#8, 0x80#8] ++ List.replicate 63 0x00#8]) = true := by decide

/-- 42_driver_commands R150: the 32 bytes of the example. -/
theorem test_rdd :
    next (exec .rdd (core .done [] 0x0c00000000000004000000000000000000000000000000010000000000001081#256)) (fun t =>
      t.responses == [[0x00#8, 0x0c#8] ++ List.replicate 6 0x00#8 ++ [0x04#8] ++ List.replicate 15 0x00#8 ++
        [0x01#8] ++ List.replicate 6 0x00#8 ++ [0x10#8, 0x81#8]]) = true := by decide

/-- R150: no partial digest is read in ABSORB. -/
theorem test_rdd_absorb : next (exec .rdd (core .absorb [] 5)) (fun t =>
    t.ph == .fault && t.responses == [[0x03#8]]) = true := by decide

/-- 42_driver_commands R151: a chaining value of 1 is sixty-three `0` and a `1`. -/
theorem test_rdx : next (exec .rdx (core .done [] 1)) (fun t =>
    t.responses == [0x00#8 :: List.replicate 63 0x30#8 ++ [0x31#8]]) = true := by decide

/-- R156: letters are lowercase. -/
theorem test_hexChar : hexChar 9 = 0x39#8 ∧ hexChar 10 = 0x61#8 ∧ hexChar 15 = 0x66#8 := by decide

/-- The textual form of two commands (30_encoding R75). -/
theorem test_asmLine : asmLine (.wrb 0x4a#8) = "WRB 0x4a" ∧ rawLine [0x30#8, 0x41#8] = "RAW 3041" ∧
    responseLine false [0x00#8, 0x43#8, 0x00#8] = "-> OK 4300" ∧ responseLine false [0x04#8] = "-> E_ALIGN" := by decide

-- ---------------------------------------------------------------- witnesses of the statements' hypotheses

/-- DecodeUndoesEncode, EncodeUndoesDecode: a well-formed command, and a transaction that decodes to one. -/
theorem test_witness_codec :
    Instr.wellFormed (.wrk (upFrom 0 64)) = true ∧ decode [0x30#8, 0x41#8] = .command (.wrb 0x41#8) := by decide

/-- SeedOperandIsBigEndian, WrkOperandIsBlock, BadBlockStops: payloads of 32, 64 and 63 bytes. -/
theorem test_witness_payloads :
    (upFrom 1 32).length = 32 ∧ (core .idle [] 0).ph ≠ .fault ∧ (upFrom 0 64).length = 64 ∧
    (core .absorb [] 0).ph = .absorb ∧ (core .absorb [] 0).cnt = 0 ∧ (upFrom 0 63).length ≠ 64 := by decide

/-- StepRunsDecodedCommand, and FetchWordIsRunNext for a word of each format. -/
theorem test_witness_fetch :
    (sent [0x40#8] (core .absorb [] 0)).port = [.transaction [0x40#8]] ∧ decode [0x40#8] = .command .fin ∧
    decodeTableWord 8 0x10 = some .rst ∧ decodeTableWord 16 0x4130 = some (.wrb 0x41#8) ∧
    decodeTableWord 264 (0x20 + 256 ^ 32) = some (.seed 1) ∧
    decodeTableWord 8 0x31 = some (.wrk (List.replicate 64 0x00#8)) := by decide

/-- TransactionProcedure: a state and a transaction for each of its clauses, with WRK at both sides of its alignment
check and FIN at both sides of the spill. -/
theorem test_witness_procedure :
    ((core .fault [] 0).ph = .fault ∧ decode [0x10#8] = .command .rst ∧ decode [0x11#8] = .command .rds ∧
      decode [0x40#8] ≠ .command .rst ∧ decode [0x40#8] ≠ .command .rds) ∧
    ((core .idle [] 0).ph ≠ .fault ∧ decode [] = .illegal ∧ decode [0x30#8] = .badLength ∧
      decode [0x50#8] = .command .rdd ∧ phaseTable .rdd (core .idle [] 0).ph = .ePhase) ∧
    ((core .absorb [0x61#8] 0).ph = .absorb ∧ (core .absorb [0x61#8] 0).cnt ≠ 0 ∧
      decode (0x31#8 :: upFrom 0 64) = .command (.wrk (upFrom 0 64))) ∧
    (phaseTable .wrk (core .absorb [] 0).ph ≠ .ePhase ∧ (core .absorb [] 0).cnt = 0) ∧
    (phaseTable .fin (core .absorb (upFrom 0 55) 0).ph ≠ .ePhase ∧ (core .absorb (upFrom 0 55) 0).cnt.toNat < 56 ∧
      (core .absorb (upFrom 0 63) 0).spillPolicy = .twoBlocks) := by decide

/-- IllegalTransactionRaises, FaultedAnswersOnly: the empty transaction, undefined opcodes, in both kinds of phase. -/
theorem test_witness_illegal :
    (sent [] (core .done [] 0)).port = [.transaction []] ∧ (core .done [] 0).ph ≠ .fault ∧
    (core .fault [] 0).ph = .fault ∧ [0x10#8, 0x00#8] ≠ [0x10#8] ∧ [0x10#8, 0x00#8] ≠ [0x11#8] ∧
    0x00#8 ∉ [0x10#8, 0x11#8, 0x20#8, 0x30#8, 0x31#8, 0x40#8, 0x41#8, 0x50#8, 0x51#8] ∧
    0x52#8 ∉ [0x10#8, 0x11#8, 0x20#8, 0x30#8, 0x31#8, 0x40#8, 0x41#8, 0x50#8, 0x51#8] := by decide

/-- WrongLengthRaises, RstResets, RdsReadsStatus: one byte too few and one too many in each format. -/
theorem test_witness_lengths :
    [0x00#8].length ≠ 0 ∧ ([] : List Byte).length ≠ 1 ∧ [0x41#8, 0x42#8].length ≠ 1 ∧ (upFrom 0 31).length ≠ 32 ∧
    (upFrom 0 33).length ≠ 32 ∧ (upFrom 0 63).length ≠ 64 ∧ (upFrom 0 65).length ≠ 64 ∧
    0x10#8 ∈ [0x10#8, 0x11#8, 0x40#8, 0x41#8, 0x50#8, 0x51#8] ∧ ([0x00#8] : List Byte) ≠ [] ∧
    (sent [0x10#8, 0x00#8] (core .idle [] 0)).port = [.transaction (0x10#8 :: [0x00#8])] := by decide

/-- FaultEntryIsPrecise: the four ways into FAULT, each from another phase by one step. -/
theorem test_witness_fault_entry :
    (next (step (sent [] (core .idle [] 0))) (fun t => t.ph == .fault && t.errc == 0x01#8) = true) ∧
    (next (step (sent [0x30#8] (core .done [] 0))) (fun t => t.ph == .fault && t.errc == 0x02#8) = true) ∧
    (next (step (sent [0x50#8] (core .absorb [] 0))) (fun t => t.ph == .fault && t.errc == 0x03#8) = true) ∧
    (next (step (sent (0x31#8 :: upFrom 0 64) (core .absorb (upFrom 0 63) 0))) (fun t =>
      t.ph == .fault && t.errc == 0x04#8) = true) := by decide

/-- FaultIsSticky: a faulted core with each input that leaves FAULT, and with one that does not. -/
theorem test_witness_sticky :
    (core .fault [0x61#8] 3).ph = .fault ∧
    (∃ rest, (sent [0x10#8] (core .fault [0x61#8] 3)).port = .transaction [0x10#8] :: rest) ∧
    (∃ rest, { core .fault [0x61#8] 3 with port := [.reset] }.port = .reset :: rest) ∧
    (∃ p rest, { core .fault [0x61#8] 3 with port := [.unfinished [0x31#8], .reset] }.port =
      .unfinished p :: .reset :: rest) ∧
    (∀ rest, (sent [0x20#8] (core .fault [0x61#8] 3)).port ≠ .transaction [0x10#8] :: rest ∧
      (sent [0x20#8] (core .fault [0x61#8] 3)).port ≠ .reset :: rest ∧
      ∀ p, (sent [0x20#8] (core .fault [0x61#8] 3)).port ≠ .unfinished p :: .reset :: rest) :=
  ⟨rfl, ⟨_, rfl⟩, ⟨_, rfl⟩, ⟨_, _, rfl⟩, fun rest => by simp [sent]⟩

/-- WaitingChangesNothing, ResetState: the three waits and the two resets. -/
theorem test_witness_port :
    State.reset.port = [] ∧ { State.reset with port := [.unfinished [0x31#8]] }.port = [.unfinished [0x31#8]] ∧
    PortInput.transaction [0x10#8] ≠ .reset ∧
    { State.reset with port := [.reset] }.port = .reset :: [] ∧
    { State.reset with port := [.unfinished [], .reset] }.port = .unfinished [] :: .reset :: [] := by decide

/-- SeedLoads, RddReadsDigest, RdxReadsHexDigest, PadqAnswersPadding: every phase, and every range of the count. -/
theorem test_witness_phases :
    (core .idle [] 0).ph = .idle ∧ (core .absorb [] 0).ph = .absorb ∧ (core .done [] 0).ph = .done ∧
    (core .fault [] 0).ph = .fault ∧ (core .absorb [] 0).cnt.toNat = 0 ∧
    (core .absorb (upFrom 0 55) 0).cnt.toNat = 55 ∧ (core .absorb (upFrom 0 56) 0).cnt.toNat = 56 ∧
    (core .absorb (upFrom 0 63) 0).cnt.toNat = 63 := by decide

/-- WrbAppends, WrkCompresses, AlignErrorOnlyFromWrk: the counts at which their clauses meet. -/
theorem test_witness_counts :
    (core .absorb (upFrom 0 62) 0).cnt.toNat < 63 ∧ ¬ (core .absorb (upFrom 0 63) 0).cnt.toNat < 63 ∧
    (core .absorb (upFrom 0 63) 0).cnt.toNat = 63 ∧ (core .absorb [] 0).cnt = 0 ∧
    (core .absorb [0x61#8] 0).cnt ≠ 0 ∧ (upFrom 0 64).length = 64 ∧
    Instr.wellFormed (.wrk (upFrom 0 64)) = true := by decide

/-- FinFinishes, FinOnBoundaryOnlyEnds, FinOneBlock, FinSpillsTwoBlocks: counts 0, 1, 55, 56 and 63, and both policies. -/
theorem test_witness_fin :
    (core .absorb [] 0).cnt = 0 ∧ (core .absorb [] 0).spillPolicy = .twoBlocks ∧
    1 ≤ (core .absorb [0x41#8] 0).cnt.toNat ∧ (core .absorb (upFrom 0 55) 0).cnt.toNat ≤ 55 ∧
    56 ≤ (core .absorb (upFrom 0 56) 0).cnt.toNat ∧ 56 ≤ (core .absorb (upFrom 0 63) 0).cnt.toNat ∧
    { core .absorb (upFrom 0 63) 0 with spillPolicy := .refuse }.spillPolicy = .refuse := by decide

/-- HexSpellsBytes: a digit on either side of 9. -/
theorem test_witness_digits :
    ((0xa9#256).extractLsb' (252 - 4 * 63) 4).toNat ≤ 9 ∧ 10 ≤ ((0xa9#256).extractLsb' (252 - 4 * 62) 4).toNat := by
  decide

/-- PhaseTableHolds: a cell of each kind, and what WRK and FIN need besides. -/
theorem test_witness_table :
    phaseTable .fin (core .absorb (upFrom 0 55) 0).ph = .goes .done ∧ (core .absorb (upFrom 0 55) 0).cnt.toNat < 56 ∧
    phaseTable .wrk (core .absorb [] 0).ph = .goes .absorb ∧ (core .absorb [] 0).cnt = 0 ∧
    (core .absorb [0x61#8] 0).cnt ≠ 0 ∧ phaseTable .padq (core .done [] 0).ph = .ePhase ∧
    phaseTable .seed (core .fault [] 0).ph = .eFaulted := by decide

/-- LanesChangedBy: SEED, WRB at 63, WRK and FIN do change the chaining value. -/
theorem test_witness_lanes :
    next (exec (.seed 1) (core .idle [] 0)) (fun t => t.cval != 0) = true ∧
    next (exec (.wrb 0xff#8) (core .absorb (upFrom 0 63) 0)) (fun t => t.cval != 0) = true ∧
    next (exec (.wrk (upFrom 0 64)) (core .absorb [] 0)) (fun t => t.cval != 0) = true ∧
    next (exec .fin (core .absorb [0x41#8] 0)) (fun t => t.cval != 0) = true := by decide

/-- BufChangedBy: WRB at 5 with another offset, and a command that stores nothing. -/
theorem test_witness_buf :
    (∃ t, exec (.wrb 0x41#8) (core .absorb (upFrom 0 5) 0) = .next t) ∧ 4 ≠ (core .absorb (upFrom 0 5) 0).cnt.toNat ∧
    (∃ t, exec .fin (core .absorb [0x41#8] 0) = .next t) ∧ Instr.fin ≠ .rst :=
  ⟨⟨_, rfl⟩, by decide, ⟨_, rfl⟩, by decide⟩

/-- CntChangedBy, TraceOnlyGrows, OneResponseEach: commands that are executed, WRB at the count where it wraps. -/
theorem test_witness_executed :
    next (exec .fin (core .absorb [0x41#8] 0)) (fun t => t.responses == [[0x00#8]] && t.trace != []) = true ∧
    next (exec (.wrb 0x41#8) (core .absorb (upFrom 0 63) 0)) (fun t =>
      t.responses == [[0x00#8]] && t.trace != []) = true ∧
    next (exec (.wrk (upFrom 0 64)) (core .absorb [] 0)) (fun t => t.responses == [[0x00#8]] && t.trace != []) = true ∧
    next (step (sent [0x11#8] (core .done [] 0))) (fun t => t.responses == [[0x00#8, 0x80#8, 0x00#8]]) = true := by
  decide

/-- PhaseChangedBy: its four disjuncts. -/
theorem test_witness_phase_change :
    next (exec (.seed 1) (core .done [] 0)) (fun t => t.ph == .absorb) = true ∧
    next (exec .fin (core .absorb [] 0)) (fun t => t.ph == .done) = true ∧
    next (exec .rst (core .fault [] 0)) (fun t => t.ph == .idle) = true ∧
    next (exec .fin (core .idle [] 0)) (fun t => t.ph == .fault && t.responses == [[0x03#8]]) = true := by decide

/-- StepStopsOnlyOnRefusedSpill: the one refusal, at both ends of its range. -/
theorem test_witness_refused :
    step (sent [0x40#8] { core .absorb (upFrom 0 56) 0 with spillPolicy := .refuse }) = .refused .spillRefused ∧
    step (sent [0x40#8] { core .absorb (upFrom 0 63) 0 with spillPolicy := .refuse }) = .refused .spillRefused :=
  ⟨rfl, rfl⟩

/-- StepKeepsInvariant: a core in ABSORB with a byte buffered meets the invariant, and so does a faulted one. -/
theorem test_witness_inv : (core .absorb [0x41#8] 5).Inv ∧ (core .fault [0x41#8] 5).Inv ∧
    ∃ t, step (sent [0x40#8] (core .absorb [0x41#8] 5)) = .next t :=
  ⟨⟨by decide, by decide, by decide, by decide, by decide, by decide⟩,
    ⟨by decide, by decide, by decide, by decide, by decide, by decide⟩, ⟨_, rfl⟩⟩

/-- UnspecifiedNeverObserved: two cores that differ in the chaining value while IDLE, and two that differ in a stale byte
while ABSORB. -/
theorem test_witness_agree :
    ((core .idle [] 1).Agree (core .idle [] 2) ∧ core .idle [] 1 ≠ core .idle [] 2) ∧
    (({ core .absorb [0x41#8] 5 with buf := [(0, 0x41#8), (7, 0x00#8)] } : State).Agree (core .absorb [0x41#8] 5)) :=
  ⟨⟨⟨rfl, rfl, rfl, rfl, rfl, rfl, rfl, by decide, by decide⟩, by decide⟩,
    ⟨rfl, rfl, rfl, rfl, rfl, rfl, rfl, fun _ => rfl, fun _ => by decide⟩⟩

/-- PadBytesEqualsPadBits, PadZeroBitCount, PadLength, PadRoundTrip, BlockIsItsParts: lengths 0, 55, 56 and 63. -/
theorem test_witness_pad :
    ([] : List Byte).length ≤ 63 ∧ (upFrom 0 55).length ≤ 55 ∧ 56 ≤ (upFrom 0 56).length ∧
    (upFrom 0 63).length ≤ 63 ∧ pad (upFrom 0 3) = pad [0x00#8, 0x01#8, 0x02#8] ∧
    (part (pad (upFrom 0 3)) 3).extractLsb' 0 64 = 24#64 := by decide

/-- CompressInNaturals: the parts, lanes and new lanes of the equations, for a block of 64 bytes. -/
theorem test_witness_compress : (upFrom 0 64).length = 64 ∧ ∃ p c n : Nat → Nat,
    (∀ i, p i = be (((upFrom 0 64).drop (16 * i)).take 16)) ∧
    (∀ i, c i = exampleSeed.toNat / 2 ^ (192 - 64 * i) % 2 ^ 64) ∧
    (∀ i, n i =
      let r := (p i <<< 3 ||| p i >>> 125) % 2 ^ 128
      let mixedLower := (r % 2 ^ 64) ^^^ c i
      let mixedUpper := (r / 2 ^ 64 + c ((i + 1) % 4)) % 2 ^ 64
      (mixedLower * mixedLower % 2 ^ 64) ^^^ mixedUpper) :=
  ⟨by decide, _, _, _, fun _ => rfl, fun _ => rfl, fun _ => rfl⟩

/-- RotationRoundTrip, BlockIsItsParts, BitsAreBytes: the ends of their index ranges. -/
theorem test_witness_ranges :
    (0 < 1 ∧ 127 < 128) ∧ (63 < 64 ∧ 63 / 16 = (3 : Fin 4).val) ∧ (1 < [0x41#8, 0x42#8].length ∧ 7 < 8) := by decide

/-- ReadsAreIdempotent, SixtyFourBytesAreABlock: their phases, with a count of 0. -/
theorem test_witness_reads :
    (core .absorb [] 3).ph = .absorb ∧ (core .done [] 3).ph = .done ∧ (core .absorb [] 3).cnt = 0 ∧
    (upFrom 0 64).length = 64 := by decide

/-- AbsorbedStateFollowsBytes, DigestOfStream: a block and a byte after it, seeded from IDLE. -/
theorem test_witness_stream :
    (∀ i, i ∈ [Instr.wrk (upFrom 0 64), .wrb 0x40#8] → carriesStream i = true) ∧
    [Instr.wrk (upFrom 0 64), .wrb 0x40#8].flatMap streamBytes = upFrom 0 65 ∧ (core .idle [] 0).ph ≠ .fault ∧
    next (execAll [.seed exampleSeed, .wrk (upFrom 0 64), .wrb 0x40#8] (core .idle [] 0)) (fun t =>
      t.ph == .absorb) = true ∧
    next (execAll [.seed exampleSeed, .wrk (upFrom 0 64), .wrb 0x40#8, .fin] (core .idle [] 0)) (fun t =>
      t.ph == .done) = true := by decide +kernel

/-- HostProcedureGivesDigest, EventCounts, PseudoCommandsAnswerFunctions: both ways to meet the policy hypothesis. -/
theorem test_witness_host :
    (core .done [] 0).ph ≠ .fault ∧ (core .done [] 0).spillPolicy = .twoBlocks ∧ (upFrom 0 55).length % 64 < 56 ∧
    (upFrom 0 63).length < 64 ∧ (upFrom 0 64).length = 64 := by decide

end Sys2Proof.Tests
end

/-! 00_scope: when a step stops (R7). -/

namespace Sys2Proof

@[simp] theorem Opcode.opcode_assemble (op : Opcode) (p : List Byte) : (op.assemble p).opcode = op := by
  cases op <;> rfl

/-- FIN has one transaction (30_encoding R62). -/
theorem eq_of_decode_eq_fin {t : List Byte} (h : decode t = .command .fin) : t = [0x40#8] := by
  obtain ⟨op, p, rfl, hl, hi⟩ := decode_eq_command h
  obtain rfl : Opcode.fin = op := (congrArg Instr.opcode hi).trans (op.opcode_assemble p)
  obtain rfl : p = [] := by simpa [Opcode.length] using hl
  rfl

namespace Machine

/-- Only a WRK whose block is not 64 bytes faults, and that is no command (41_compressor R133). -/
theorem exec_ne_fault {i : Instr} (hw : i.wellFormed = true) (s : State) (r : Fault) : exec i s ≠ .fault r := by
  intro h
  have ho := exec_outcomes i s
  rw [h] at ho
  cases ho with
  | blocked _ hb =>
    cases hb with
    | block blk _ _ hlen => exact hlen (by simpa [Instr.wellFormed] using hw)

/-- Only FIN is refused, and only where 00_scope R7 asks for it. -/
theorem exec_refused {i : Instr} {s : State} {r : Refusal} (h : exec i s = .refused r) :
    i = .fin ∧ r = .spillRefused ∧ s.spillPolicy = .refuse ∧ s.ph = .absorb ∧ 56 ≤ s.cnt.toNat := by
  have ho := exec_outcomes i s
  rw [h] at ho
  cases ho with
  | blocked hl hb =>
    cases hb with
    | spill _ hp hc => exact ⟨rfl, rfl, hp, by simpa [legalPhases] using hl, hc⟩

/-- A step that answers no next state stops in the command it has decoded. -/
theorem step_stops {s : State} (h : ∀ t, step s ≠ .next t) :
    ∃ t rest i, s.port = .transaction t :: rest ∧ decode t = .command i ∧ step s = exec i (s.setPort rest) := by
  have hs := step_steps s
  generalize step s = o at h hs
  cases hs with
  | waits => exact absurd rfl (h _)
  | reset => exact absurd rfl (h _)
  | reject => exact absurd rfl (h _)
  | command t rest i ht hd => exact ⟨t, rest, i, takeInput_eq_command ht, hd, rfl⟩

theorem step_ne_fault (s : State) (r : Fault) : step s ≠ .fault r := by
  intro h
  obtain ⟨t, rest, i, -, hd, he⟩ := step_stops (s := s) (by simp [h])
  exact exec_ne_fault (wellFormed_of_decode hd) (s.setPort rest) r (he.symm.trans h)

theorem step_refused {s : State} {r : Refusal} (h : step s = .refused r) :
    r = .spillRefused ∧ s.spillPolicy = .refuse ∧ s.ph = .absorb ∧ 56 ≤ s.cnt.toNat ∧
      ∃ rest, s.port = .transaction [0x40#8] :: rest := by
  obtain ⟨t, rest, i, hport, hd, he⟩ := step_stops (s := s) (by simp [h])
  obtain ⟨rfl, hr, hpol, hph, hcnt⟩ := exec_refused (he.symm.trans h)
  obtain rfl := eq_of_decode_eq_fin hd
  exact ⟨hr, hpol, hph, hcnt, rest, hport⟩

/-- Settles O38: a stopped step is a decoded command that stopped, and of those only FIN can. -/
theorem stepStopsOnlyOnRefusedSpill : Obligations.StepStopsOnlyOnRefusedSpill := fun s =>
  ⟨step_ne_fault s, fun _ => step_refused⟩

end Machine
end Sys2Proof

/-! 10_state: what the commands and the steps do to the state (R20 to R35). -/

namespace Sys2Proof.Machine

/-! The lanes and the chaining value (R21). -/

theorem toNat_append_eq_add {m n : Nat} (x : BitVec m) (y : BitVec n) :
    (x ++ y).toNat = x.toNat * 2 ^ n + y.toNat := by
  rw [BitVec.toNat_append, ← Nat.shiftLeft_add_eq_or_of_lt y.isLt, Nat.shiftLeft_eq]

theorem toNat_joinLanes (l0 l1 l2 l3 : U64) : (joinLanes l0 l1 l2 l3).toNat =
    l0.toNat * 2 ^ 192 + l1.toNat * 2 ^ 128 + l2.toNat * 2 ^ 64 + l3.toNat := by
  simp only [joinLanes, toNat_append_eq_add]
  ring

/-- Settles O47: CVAL is the lanes joined, and joining loses none of them. -/
theorem chainingValueIsItsLanes : Obligations.ChainingValueIsItsLanes := fun s =>
  ⟨toNat_joinLanes s.cv0 s.cv1 s.cv2 s.cv3, (laneOf_cval_zero s).symm, (laneOf_cval_one s).symm,
    (laneOf_cval_two s).symm, (laneOf_cval_three s).symm⟩

/-! What the effect of a command leaves in each field. -/

/-- The phase a legal command goes to (R26). -/
def phaseAfter : Instr → Phase → Phase
  | .rst, _ => .idle
  | .seed _, _ => .absorb
  | .fin, _ => .done
  | .rds, p => p
  | .wrb _, p => p
  | .wrk _, p => p
  | .padq, p => p
  | .rdd, p => p
  | .rdx, p => p

theorem effect_ph (i : Instr) (s : State) : (effect i s).ph = phaseAfter i s.ph := by
  cases i <;> simp [effect, phaseAfter]

theorem phaseAfter_eq_or (i : Instr) (p : Phase) : phaseAfter i p = p ∨
    (∃ v, i = .seed v) ∧ phaseAfter i p = .absorb ∨ i = .fin ∧ phaseAfter i p = .done ∨
    i = .rst ∧ phaseAfter i p = .idle := by
  cases i <;> simp [phaseAfter]

/-- A command that has its effect answers OK (30_encoding R72, R73). -/
theorem effect_responses (i : Instr) (s : State) :
    ∃ data, (effect i s).responses = s.responses ++ [0x00#8 :: data] := by
  cases i <;> simp [effect, statusOk]

theorem State.appendByte_cval_of_lt {s : State} (b : Byte) (h : s.cnt.toNat < 63) :
    (s.appendByte b).cval = s.cval := by
  rw [State.appendByte_of_lt b h, State.setCnt_cval, State.storeByte_cval]

theorem effect_cval_eq_or (i : Instr) (s : State) : (effect i s).cval = s.cval ∨ i = .rst ∨ (∃ v, i = .seed v) ∨
    (∃ blk, i = .wrk blk) ∨ ((∃ b, i = .wrb b) ∧ s.cnt.toNat = 63) ∨ (i = .fin ∧ s.cnt ≠ 0) := by
  cases i with
  | rst | seed | wrk => simp
  | rds | padq | rdd | rdx => exact .inl rfl
  | wrb b =>
    rcases s.cnt_lt_or_full with h | h
    · left; rw [effect, State.respond_cval, State.appendByte_cval_of_lt b h]
    · simp [h]
  | fin =>
    by_cases h : s.cnt = 0
    · left; simp [effect, State.absorbFinal_cval, h]
    · exact .inr (.inr (.inr (.inr (.inr ⟨rfl, h⟩))))

theorem effect_buf {i : Instr} (hr : i ≠ .rst) (hw : ∀ b, i ≠ .wrb b) (s : State) : (effect i s).buf = s.buf := by
  cases i with
  | rst => exact absurd rfl hr
  | wrb b => exact absurd rfl (hw b)
  | _ => simp [effect]

theorem effect_wrb_buf (b : Byte) (s : State) : (effect (.wrb b) s).buf = s.buf.write s.cnt.toNat b := by
  simp [effect]

theorem effect_trace (i : Instr) (s : State) : ∃ seg, (effect i s).trace = s.trace ++ seg ∧
    (seg ≠ [] → (∃ b, i = .wrb b) ∨ (∃ blk, i = .wrk blk) ∨ i = .fin) := by
  cases i with
  | rst | rds | seed | padq | rdd | rdx => exact ⟨[], by simp [effect], by simp⟩
  | wrb b =>
    rcases s.cnt_lt_or_full with h | h
    · exact ⟨[], by simp [effect, State.appendByte_of_lt b h], by simp⟩
    · exact ⟨_, by rw [effect, State.appendByte_of_full b h]; exact State.absorbBlock_trace _ _, by simp⟩
  | wrk blk => exact ⟨_, s.absorbBlock_trace blk, by simp⟩
  | fin => exact ⟨_, s.absorbFinal_trace, by simp⟩

/-! The phase table (R34). -/

/-- The table is the list of legal phases, where each goes, and one rejection in FAULT and another elsewhere. -/
theorem phaseTable_eq (i : Instr) (p : Phase) : phaseTable i.opcode p =
    if p ∈ legalPhases i then .goes (phaseAfter i p) else if p = .fault then .eFaulted else .ePhase := by
  cases i <;> cases p <;> rfl

theorem phaseTable_eq_goes {i : Instr} {p q : Phase} (h : phaseTable i.opcode p = .goes q) :
    p ∈ legalPhases i ∧ phaseAfter i p = q := by
  rw [phaseTable_eq] at h
  split_ifs at h with hl hf
  exact ⟨hl, by simpa using h⟩

theorem phaseTable_eq_ePhase {i : Instr} {p : Phase} (h : phaseTable i.opcode p = .ePhase) :
    p ≠ .fault ∧ p ∉ legalPhases i := by
  rw [phaseTable_eq] at h
  split_ifs at h with hl hf
  exact ⟨hf, hl⟩

theorem phaseTable_eq_eFaulted {i : Instr} {p : Phase} (h : phaseTable i.opcode p = .eFaulted) :
    p = .fault ∧ p ∉ legalPhases i := by
  rw [phaseTable_eq] at h
  split_ifs at h with hl hf
  exact ⟨hf, hl⟩

/-- Settles O30: a named phase is a legal command's effect, and each other cell is one rejection. -/
theorem phaseTableHolds : Obligations.PhaseTableHolds := by
  intro i s hw
  refine ⟨fun p hp hk hf => ?_, ?_, fun h => ?_, fun h => ?_⟩
  · obtain ⟨hl, rfl⟩ := phaseTable_eq_goes hp
    obtain ⟨data, hd⟩ := effect_responses i s
    refine ⟨effect i s, data, exec_runs hl (fun blk hi => ⟨hk blk hi, ?_⟩) (fun hi hr => ?_), effect_ph i s, hd⟩
    · subst hi; simpa [Instr.wellFormed] using hw
    · simpa [hr] using hf hi
  · rintro blk rfl hp hc
    exact exec_wrk_align hp hc
  · obtain ⟨hf, hl⟩ := phaseTable_eq_ePhase h
    exact exec_phase hf hl
  · obtain ⟨hf, hl⟩ := phaseTable_eq_eFaulted h
    exact exec_faulted hf hl

/-! The frames over all commands (R22 to R26, R33). -/

/-- What a rejected command leaves as it was, and the one code it answers (60_exceptions R185, R186). -/
structure State.RejectedAs (s t : State) (c : Byte) : Prop where
  code : c ≠ 0x00#8
  cval : t.cval = s.cval
  buf : t.buf = s.buf
  cnt : t.cnt = s.cnt
  trace : t.trace = s.trace
  responses : t.responses = s.responses ++ [[c]]
  ph : t.ph = s.ph ∨ t.ph = .fault ∧ t.errc = c

theorem Error.code_ne_zero (e : Error) : e.code ≠ 0x00#8 := by cases e <;> decide

theorem State.raise_rejectedAs (s : State) (e : Error) : s.RejectedAs (s.raise e) e.code :=
  ⟨e.code_ne_zero, rfl, rfl, rfl, rfl, rfl, .inr ⟨rfl, rfl⟩⟩

theorem State.answerFaulted_rejectedAs (s : State) : s.RejectedAs s.answerFaulted statusFaulted :=
  ⟨by decide, rfl, rfl, rfl, rfl, rfl, .inl rfl⟩

/-- A command that answers a next state is rejected or has its effect. -/
theorem exec_rejects_or_runs {i : Instr} {s t : State} (h : exec i s = .next t) :
    (∃ c, s.RejectedAs t c) ∨ ((∀ blk, i = .wrk blk → s.cnt = 0) ∧ t = effect i s) := by
  cases exec_next h with
  | faulted => exact .inl ⟨_, s.answerFaulted_rejectedAs⟩
  | phase => exact .inl ⟨_, s.raise_rejectedAs _⟩
  | align => exact .inl ⟨_, s.raise_rejectedAs _⟩
  | runs _ ha _ => exact .inr ⟨fun blk hi => (ha blk hi).1, rfl⟩

/-- Settles O31: a rejection keeps the lanes, and so does the effect of every other command. -/
theorem lanesChangedBy : Obligations.LanesChangedBy := by
  intro i s t h hne
  obtain ⟨c, hr⟩ | ⟨-, rfl⟩ := exec_rejects_or_runs h
  · exact absurd hr.cval hne
  · exact (effect_cval_eq_or i s).resolve_left hne

/-- Settles O32: a read at another offset than the one WRB writes to is not changed by the write. -/
theorem bufChangedBy : Obligations.BufChangedBy := by
  intro i s t h hrst a ha
  obtain ⟨c, hr⟩ | ⟨-, rfl⟩ := exec_rejects_or_runs h
  · rw [hr.buf]
  · by_cases hw : ∃ b, i = .wrb b
    · have hne := ha hw
      obtain ⟨b, rfl⟩ := hw
      rw [effect_wrb_buf, Memory.read_write_of_ne _ _ hne]
    · rw [effect_buf hrst (not_exists.mp hw)]

/-- Settles O33: the answer OK rules a rejection out, and each effect writes CNT as R25 says. -/
theorem cntChangedBy : Obligations.CntChangedBy := by
  intro i s t data h hok
  obtain ⟨c, hr⟩ | ⟨hk, rfl⟩ := exec_rejects_or_runs h
  · obtain ⟨hc, -⟩ : c = 0x00#8 ∧ data = [] := by
      simpa using List.append_cancel_left (hr.responses.symm.trans hok)
    exact absurd hc hr.code
  · refine ⟨?_, ?_, ?_, ?_⟩
    · rintro (rfl | ⟨v, rfl⟩ | rfl) <;> rfl
    · rintro ⟨b, rfl⟩
      simp [effect, BitVec.toNat_add]
    · rintro ⟨blk, rfl⟩
      have hc := hk blk rfl
      exact ⟨hc, by simp [effect, hc]⟩
    · rintro (rfl | rfl | rfl | rfl) <;> rfl

/-- Settles O34: an effect moves PH as the table says, and a rejection only to FAULT. -/
theorem phaseChangedBy : Obligations.PhaseChangedBy := by
  intro i s t h hne
  obtain ⟨c, hr⟩ | ⟨-, rfl⟩ := exec_rejects_or_runs h
  · obtain ⟨hf, he⟩ := hr.ph.resolve_left hne
    exact .inr (.inr (.inr ⟨hf, c, hr.code, he, hr.responses⟩))
  · rw [effect_ph] at hne ⊢
    rcases (phaseAfter_eq_or i s.ph).resolve_left hne with hs | hf | hr
    · exact .inl hs
    · exact .inr (.inl hf)
    · exact .inr (.inr (.inl hr))

/-- Settles O35: a rejection emits nothing, and an effect appends. -/
theorem traceOnlyGrows : Obligations.TraceOnlyGrows := by
  intro i s t h
  obtain ⟨c, hr⟩ | ⟨-, rfl⟩ := exec_rejects_or_runs h
  · exact ⟨[], by rw [hr.trace, List.append_nil], fun hne => absurd rfl hne⟩
  · exact effect_trace i s

/-! The invariant (R32). -/

/-- Settles O41: at reset every clause is about IDLE with nothing buffered. -/
theorem resetMeetsInvariant : Obligations.ResetMeetsInvariant where
  errcClear _ := rfl
  errcSet h := nomatch h
  idleEmpty _ := rfl
  doneEmpty _ := rfl
  bufWf := Memory.wf_nil
  received _ h := absurd h (Nat.not_lt_zero _)

/-- An offset below the count after a byte is below the count before it, or the byte's own. -/
theorem lt_cnt_of_lt_succ {n : BitVec 6} {j : Nat} (h : j < (n + 1).toNat) (hne : j ≠ n.toNat) : j < n.toNat := by
  have hone : (1 : BitVec 6).toNat = 1 := rfl
  rw [BitVec.toNat_add, hone] at h
  omega

section
variable {s : State} (h : s.Inv)
include h

/-- The invariant speaks of PH, ERRC, CNT and BUF only. -/
theorem State.Inv.congr {t : State} (hp : t.ph = s.ph) (he : t.errc = s.errc) (hc : t.cnt = s.cnt)
    (hb : t.buf = s.buf) : t.Inv where
  errcClear := by rw [hp, he]; exact h.errcClear
  errcSet := by rw [hp, he]; exact h.errcSet
  idleEmpty := by rw [hp, hc]; exact h.idleEmpty
  doneEmpty := by rw [hp, hc]; exact h.doneEmpty
  bufWf := by rw [hb]; exact h.bufWf
  received := by rw [hc, hb]; exact h.received

theorem State.Inv.respond (st : Byte) (data : List Byte) : (s.respond st data).Inv := h.congr rfl rfl rfl rfl

theorem State.Inv.setPort (rest : List PortInput) : (s.setPort rest).Inv := h.congr rfl rfl rfl rfl

theorem State.Inv.answerFaulted : s.answerFaulted.Inv := h.respond _ _

theorem State.Inv.raise (e : Error) : (s.raise e).Inv where
  errcClear hp := absurd rfl hp
  errcSet _ := by cases e <;> simp [Error.code]
  idleEmpty hp := nomatch hp
  doneEmpty hp := nomatch hp
  bufWf := h.bufWf
  received := h.received

theorem State.Inv.rejectTransaction (e : Error) : (s.rejectTransaction e).Inv := by
  by_cases hf : s.ph = .fault
  · rw [State.rejectTransaction_of_fault hf]; exact h.answerFaulted
  · rw [State.rejectTransaction_of_not_fault hf]; exact h.raise e

/-- WRB writes the byte at offset CNT before it counts it. -/
theorem State.Inv.appendByte (b : Byte) (hp : s.ph = .absorb) : (s.appendByte b).Inv where
  errcClear := by simpa using h.errcClear
  errcSet := by simpa using h.errcSet
  idleEmpty := by simp [hp]
  doneEmpty := by simp [hp]
  bufWf := by rw [State.appendByte_buf]; exact Memory.wf_write h.bufWf s.cnt.isLt b
  received j hj := by
    rw [State.appendByte_buf, Memory.read_write]
    split_ifs with hjc
    · rfl
    · exact h.received j (lt_cnt_of_lt_succ (by simpa using hj) hjc)

end

/-- With no byte buffered, outside FAULT, what is left of the invariant is ERRC and the form of BUF. -/
theorem State.Inv.of_empty {s : State} (hp : s.ph ≠ .fault) (he : s.errc = 0x00#8) (hc : s.cnt = 0)
    (hb : s.buf.wf = true) : s.Inv where
  errcClear _ := he
  errcSet h := absurd h hp
  idleEmpty _ := hc
  doneEmpty _ := hc
  bufWf := hb
  received j hj := by rw [hc] at hj; exact absurd hj (Nat.not_lt_zero j)

theorem State.clear_inv (s : State) : s.clear.Inv := .of_empty nofun rfl rfl Memory.wf_nil

theorem State.hardwareReset_inv (s : State) : s.hardwareReset.Inv := s.clear_inv.congr rfl rfl rfl rfl

theorem effect_inv {i : Instr} {s : State} (h : s.Inv) (hl : s.ph ∈ legalPhases i) : (effect i s).Inv := by
  cases i with
  | rst => exact s.clear_inv.respond _ _
  | rds | padq | rdd | rdx => exact h.respond _ _
  | seed v =>
    have hp : s.ph ≠ .fault := fun hp => by simp [legalPhases, hp] at hl
    exact .of_empty nofun (h.errcClear hp) rfl h.bufWf
  | wrb b => exact (h.appendByte b (by simpa [legalPhases] using hl)).respond _ _
  | wrk blk => exact h.congr rfl rfl rfl rfl
  | fin =>
    have hp : s.ph ≠ .fault := fun hp => by simp [legalPhases, hp] at hl
    exact .of_empty nofun (by simpa [effect] using h.errcClear hp) rfl (by simpa [effect] using h.bufWf)

theorem exec_inv {i : Instr} {s t : State} (h : s.Inv) (he : exec i s = .next t) : t.Inv := by
  cases exec_next he with
  | faulted => exact h.answerFaulted
  | phase | align => exact h.raise _
  | runs hl => exact effect_inv h hl

/-- Settles O40: a wait keeps the state, a reset meets the invariant from any state, and a rejection and a command keep
it. -/
theorem stepKeepsInvariant : Obligations.StepKeepsInvariant := by
  intro s t h hst
  have hs := step_steps s
  rw [hst] at hs
  generalize ho : Host.Outcome.next t = o at hs
  cases hs with
  | waits => cases ho; exact h
  | reset rest => cases ho; exact State.hardwareReset_inv _
  | reject t rest e => cases ho; exact (h.setPort rest).rejectTransaction e
  | command t rest i => exact exec_inv (h.setPort rest) ho.symm

/-! Unspecified and stale bits are not observed (R23, 20_memory R51). -/

@[simp] theorem State.setCnt_bufByte (s : State) (n : BitVec 6) (j : Nat) :
    (s.setCnt n).bufByte j = s.bufByte j := rfl

@[simp] theorem State.absorbBlock_bufByte (s : State) (blk : List Byte) (j : Nat) :
    (s.absorbBlock blk).bufByte j = s.bufByte j := by simp [State.bufByte]

section
variable {s t : State} (h : s.Agree t)
include h

theorem State.Agree.status : s.status = t.status := by rw [State.status, h.ph, h.cnt, h.errc, State.status]

theorem State.Agree.bufBytes {n : Nat} (hp : s.ph = .absorb) (hn : n ≤ s.cnt.toNat) : s.bufBytes n = t.bufBytes n :=
  State.bufBytes_congr fun j hj => h.bytes hp j (by omega)

theorem State.Agree.padded (hp : s.ph = .absorb) : s.padded = t.padded := by
  rw [State.padded, h.bufBytes hp le_rfl, h.cnt, State.padded]

theorem State.Agree.setPort (rest : List PortInput) : (s.setPort rest).Agree (t.setPort rest) :=
  { h with port := rfl }

theorem State.Agree.respond (st : Byte) {a b : List Byte} (hd : a = b) : (s.respond st a).Agree (t.respond st b) :=
  { h with responses := by simp [h.responses, hd] }

theorem State.Agree.answerFaulted : s.answerFaulted.Agree t.answerFaulted := h.respond _ rfl

theorem State.Agree.raise (e : Error) : (s.raise e).Agree (t.raise e) :=
  { h with
    ph := rfl
    errc := rfl
    responses := by simp [h.responses]
    lanes := by simp
    bytes := by simp }

theorem State.Agree.rejectTransaction (e : Error) : (s.rejectTransaction e).Agree (t.rejectTransaction e) := by
  by_cases hf : s.ph = .fault
  · rw [State.rejectTransaction_of_fault hf, State.rejectTransaction_of_fault (h.ph ▸ hf)]
    exact h.answerFaulted
  · rw [State.rejectTransaction_of_not_fault hf, State.rejectTransaction_of_not_fault (h.ph ▸ hf)]
    exact h.raise e

/-- In IDLE no lane and no byte of BUF is compared. -/
theorem State.Agree.clear : s.clear.Agree t.clear :=
  { h with ph := rfl, cnt := rfl, errc := rfl, lanes := by simp, bytes := by simp }

theorem State.Agree.hardwareReset : s.hardwareReset.Agree t.hardwareReset :=
  { h.clear with trace := rfl }

/-- SEED writes the lanes and leaves no byte buffered. -/
theorem State.Agree.seed (v : U256) :
    (((s.setCval v).setCnt 0).setPhase .absorb).Agree (((t.setCval v).setCnt 0).setPhase .absorb) :=
  { h with ph := rfl, cnt := rfl, lanes := by simp, bytes := by simp }

theorem State.Agree.absorbBlock (hp : s.ph = .absorb) (blk : List Byte) :
    (s.absorbBlock blk).Agree (t.absorbBlock blk) := by
  have hcv := h.lanes (.inl hp)
  exact { h with
    trace := by simp [h.trace, hcv]
    lanes := by simp [hcv]
    bytes := by simpa using h.bytes }

/-- Two stores of one byte at one offset. -/
theorem State.Agree.storeByte (j : Nat) (b : Byte) : (s.storeByte j b).Agree (t.storeByte j b) :=
  { h with bytes := fun hp k hk => by rw [State.bufByte_storeByte, State.bufByte_storeByte, h.bytes hp k hk] }

theorem State.Agree.setCnt_zero : (s.setCnt 0).Agree (t.setCnt 0) :=
  { h with cnt := rfl, bytes := by simp }

/-- The byte stored is compared from now on, and is the same in both. -/
theorem State.Agree.appendByte (hp : s.ph = .absorb) (b : Byte) : (s.appendByte b).Agree (t.appendByte b) := by
  rcases s.cnt_lt_or_full with hc | hc
  · rw [State.appendByte_of_lt b hc, State.appendByte_of_lt b (h.cnt ▸ hc), ← h.cnt]
    refine { h.storeByte s.cnt.toNat b with cnt := rfl, bytes := fun _ j hj => ?_ }
    simp only [State.setCnt_bufByte, State.bufByte_storeByte]
    split_ifs with hjc
    · rfl
    · exact h.bytes hp j (lt_cnt_of_lt_succ (by simpa using hj) hjc)
  · have hb : s.bufBytes 63 = t.bufBytes 63 := h.bufBytes hp hc.ge
    rw [State.appendByte_of_full b hc, State.appendByte_of_full b (h.cnt ▸ hc), hb]
    exact ((h.storeByte 63 b).absorbBlock hp _).setCnt_zero

/-- FIN compresses what is buffered, which both states hold alike. -/
theorem State.Agree.fin (hp : s.ph = .absorb) :
    ((s.absorbFinal.setCnt 0).setPhase .done).Agree ((t.absorbFinal.setCnt 0).setPhase .done) := by
  have hcv := h.lanes (.inl hp)
  exact {
    ph := rfl
    cnt := rfl
    errc := by simp [h.errc]
    port := by simp [h.port]
    responses := by simp [h.responses]
    trace := by simp [State.absorbFinal_trace, h.trace, h.cnt, hcv, h.padded hp]
    spillPolicy := by simp [h.spillPolicy]
    lanes := by simp [State.absorbFinal_cval, h.cnt, hcv, h.padded hp]
    bytes := by simp }

theorem whenLegal_agree {allowed : List Phase} {run : State → Host.Outcome State Fault Refusal}
    (hrun : s.ph ∈ allowed → outcomesAgree (run s) (run t)) :
    outcomesAgree (whenLegal allowed run s) (whenLegal allowed run t) := by
  by_cases hl : s.ph ∈ allowed
  · rw [whenLegal_of_mem hl, whenLegal_of_mem (h.ph ▸ hl)]
    exact hrun hl
  · by_cases hf : s.ph = .fault
    · rw [whenLegal_of_fault hf (hf ▸ hl), whenLegal_of_fault (h.ph ▸ hf) (hf ▸ hl)]
      exact h.answerFaulted
    · rw [whenLegal_of_not_mem hl hf, whenLegal_of_not_mem (h.ph ▸ hl) (h.ph ▸ hf)]
      exact h.raise _

/-- What a legal command does to two states that agree is the same, up to what it does not read. -/
theorem effect_agree {i : Instr} (hl : s.ph ∈ legalPhases i) : (effect i s).Agree (effect i t) := by
  cases i with
  | rst => exact h.clear.respond _ rfl
  | rds => exact h.respond _ (by rw [h.status])
  | seed v => exact (h.seed v).respond _ rfl
  | wrb b => exact (h.appendByte (by simpa [legalPhases] using hl) b).respond _ rfl
  | wrk blk => exact (h.absorbBlock (by simpa [legalPhases] using hl) blk).respond _ rfl
  | fin => exact (h.fin (by simpa [legalPhases] using hl)).respond _ rfl
  | padq => exact h.respond _ (h.padded (by simpa [legalPhases] using hl))
  | rdd | rdx => exact h.respond _ (by rw [h.lanes (.inr (by simpa [legalPhases] using hl))])

theorem whenLegal_effect_agree (i : Instr) :
    outcomesAgree (whenLegal (legalPhases i) (fun s => .next (effect i s)) s)
      (whenLegal (legalPhases i) (fun s => .next (effect i s)) t) :=
  whenLegal_agree h fun hl => effect_agree h hl

theorem execWrk_agree (blk : List Byte) : outcomesAgree (execWrk blk s) (execWrk blk t) := by
  refine whenLegal_agree h fun hl => ?_
  rw [← h.cnt]
  split_ifs
  · exact h.raise _
  · rfl
  · exact effect_agree h (i := .wrk blk) hl

theorem execFin_agree : outcomesAgree (execFin s) (execFin t) := by
  refine whenLegal_agree h fun hl => ?_
  rw [← h.cnt, ← h.spillPolicy]
  split_ifs
  · rfl
  · exact effect_agree h (i := .fin) hl

theorem exec_agree (i : Instr) : outcomesAgree (exec i s) (exec i t) := by
  cases i with
  | wrk blk => exact execWrk_agree h blk
  | fin => exact execFin_agree h
  | rst => exact whenLegal_effect_agree h .rst
  | rds => exact whenLegal_effect_agree h .rds
  | seed v => exact whenLegal_effect_agree h (.seed v)
  | wrb b => exact whenLegal_effect_agree h (.wrb b)
  | padq => exact whenLegal_effect_agree h .padq
  | rdd => exact whenLegal_effect_agree h .rdd
  | rdx => exact whenLegal_effect_agree h .rdx

end

/-- Settles O42: both steps find the same input, and each thing a step does keeps the agreement. -/
theorem unspecifiedNeverObserved : Obligations.UnspecifiedNeverObserved := by
  intro s t h
  unfold step
  rw [← h.port]
  cases takeInput s.port with
  | waiting => exact h
  | reset rest => exact (h.setPort rest).hardwareReset
  | command tr rest =>
    dsimp only
    cases decode tr with
    | illegal => exact (h.setPort rest).rejectTransaction .illegal
    | badLength => exact (h.setPort rest).rejectTransaction .length
    | command i => exact exec_agree (h.setPort rest) i

end Sys2Proof.Machine

/-! 20_memory: byte sequences as bits, blocks as parts, and the commands that only read (R42 to R46). -/

namespace Sys2Proof

/-- Byte `k` of the `n` bytes of a number (00_scope R12). -/
theorem getElem?_bytesBe {n k : Nat} (v : Nat) (h : k < n) :
    (bytesBe n v)[k]? = some (BitVec.ofNat 8 (v / 256 ^ (n - 1 - k))) := by
  induction n generalizing k with
  | zero => omega
  | succ n ih =>
    cases k with
    | zero => simp [bytesBe]
    | succ k =>
      rw [bytesBe, List.getElem?_cons_succ, ih (by omega), show n + 1 - 1 - (k + 1) = n - 1 - k by omega]

/-- Byte `k` of a sequence, from the number of the sequence. -/
theorem getElem?_eq_ofNat_be {s : List Byte} {k : Nat} (h : k < s.length) :
    s[k]? = some (BitVec.ofNat 8 (be s / 256 ^ (s.length - 1 - k))) := by
  conv_lhs => rw [← bytesBe_be s]
  exact getElem?_bytesBe _ h

/-- The number of a sequence, cut after its first `n` bytes. -/
theorem be_eq_take_drop (s : List Byte) (n : Nat) :
    be s = be (s.take n) * 256 ^ (s.length - n) + be (s.drop n) := by
  conv_lhs => rw [← List.take_append_drop n s]
  rw [be_append, List.length_drop]

namespace Machine

/-! Bytes as bits (R42). -/

theorem getElem?_byteBits (b : Byte) {j : Nat} (h : j < 8) : (byteBits b)[j]? = some (b.getLsbD (7 - j)) := by
  interval_cases j <;> rfl

theorem getElem?_bits {s : List Byte} {k j : Nat} (h : k < s.length) (hj : j < 8) :
    (bits s)[8 * k + j]? = some (s[k].getLsbD (7 - j)) := by
  induction s generalizing k with
  | nil => exact absurd h (Nat.not_lt_zero k)
  | cons b s ih =>
    have hb : (byteBits b).length = 8 := rfl
    rw [bits_cons]
    cases k with
    | zero => rw [List.getElem?_append_left (by omega), Nat.mul_zero, Nat.zero_add, getElem?_byteBits b hj]; rfl
    | succ k =>
      rw [List.getElem?_append_right (by omega), hb, show 8 * (k + 1) + j - 8 = 8 * k + j by omega,
        ih (by simpa using h)]
      rfl

@[simp] theorem unbits_bits (s : List Byte) : unbits (bits s) = s := by
  simpa [unbits] using unbits_bits_append s []

@[simp] theorem length_bitsBe (n v : Nat) : (bitsBe n v).length = n := by
  induction n with
  | zero => rfl
  | succ n ih => rw [bitsBe, List.length_cons, ih]

/-- `bits_be(n, v)` spells the low `n` bits of `v` (00_scope R13). -/
theorem ofBits_bitsBe (n v : Nat) : ofBits (bitsBe n v) = v % 2 ^ n := by
  induction n with
  | zero => simp [bitsBe, ofBits, Nat.mod_one]
  | succ n ih => rw [bitsBe, ofBits, ih, length_bitsBe, Nat.mod_pow_succ, Nat.toNat_testBit]; ring

/-- The bits of a byte sequence are those of its number. -/
theorem bits_eq_bitsBe (s : List Byte) : bits s = bitsBe (8 * s.length) (be s) := by
  rw [← bits_bytesBe, bytesBe_be]

theorem ofBits_bits (s : List Byte) : ofBits (bits s) = be s := by
  have hlt : be s < 2 ^ (8 * s.length) := by rw [pow_mul]; exact be_lt s
  rw [bits_eq_bitsBe, ofBits_bitsBe, Nat.mod_eq_of_lt hlt]

/-- Settles O53: regrouping takes the bytes off one by one, and the bits are those of the big-endian number. -/
theorem bitsAreBytes : Obligations.BitsAreBytes := fun s =>
  ⟨fun _ _ => getElem?_bits, unbits_bits s, length_bits s, ofBits_bits s, bits_eq_bitsBe s⟩

/-! A block and its parts (R43). -/

theorem be_eq_parts {blk : List Byte} (h : blk.length = 64) : be blk =
    (part blk 0).toNat * 2 ^ 384 + (part blk 1).toNat * 2 ^ 256 + (part blk 2).toNat * 2 ^ 128 +
      (part blk 3).toNat := by
  have h3 : (blk.drop 48).take 16 = blk.drop 48 := List.take_of_length_le (by simp [h])
  have cut0 := be_eq_take_drop blk 16
  have cut1 := be_eq_take_drop (blk.drop 16) 16
  have cut2 := be_eq_take_drop (blk.drop 32) 16
  simp only [List.drop_drop, List.length_drop, h, Nat.reduceAdd] at cut0 cut1 cut2
  simp only [toNat_part _ _ h, Fin.val_zero, Fin.val_one, Fin.val_two, show (3 : Fin 4).val = 3 from rfl,
    Nat.reduceMul, List.drop_zero, h3]
  omega

/-- Byte `k` of part `i` is byte `16i + k` of the block. -/
theorem getElem?_eq_extract_part {blk : List Byte} (h : blk.length = 64) (i : Fin 4) {k : Nat} (hk : k < 16) :
    blk[16 * i.val + k]? = some ((part blk i).extractLsb' (120 - 8 * k) 8) := by
  have hl : ((blk.drop (16 * i.val)).take 16).length = 16 := by simp; omega
  have hpow : 256 ^ (16 - 1 - k) = 2 ^ (120 - 8 * k) := by
    rw [show (256 : Nat) = 2 ^ 8 by norm_num, ← pow_mul]; congr 1; omega
  have hbyte := getElem?_eq_ofNat_be (s := (blk.drop (16 * i.val)).take 16) (hl ▸ hk)
  rw [List.getElem?_take_of_lt hk, List.getElem?_drop, hl, hpow, ← toNat_part _ _ h] at hbyte
  rw [hbyte]
  congr 1
  apply BitVec.eq_of_toNat_eq
  rw [BitVec.extractLsb'_toNat, BitVec.toNat_ofNat, Nat.shiftRight_eq_div_pow]

/-- The last eight bytes of a block are the low half of its last part. -/
theorem toNat_part_three_low_append {x y : List Byte} (hx : x.length = 56) (hy : y.length = 8) :
    ((part (x ++ y) 3).extractLsb' 0 64).toNat = be y := by
  have hlt := be_lt y
  have hq : (x ++ y).length = 64 := by simp [hx, hy]
  have htail : ((x ++ y).drop (16 * (3 : Fin 4).val)).take 16 = x.drop 48 ++ y := by
    rw [show 16 * (3 : Fin 4).val = 48 from rfl, List.drop_append_of_le_length (by omega)]
    exact List.take_of_length_le (by simp [hx, hy])
  rw [hy] at hlt
  rw [BitVec.extractLsb'_toNat, toNat_part _ _ hq, htail, be_append, hy, Nat.shiftRight_zero,
    show (2 : Nat) ^ 64 = 256 ^ 8 by norm_num, Nat.mul_add_mod_self_right, Nat.mod_eq_of_lt hlt]

/-- What the padder makes ends in a block whose last eight bytes are the length field (40_padder R102, R104). -/
theorem exists_pad_eq {m : List Byte} (h : m.length ≤ 63) : ∃ a x, pad m = a ++ (x ++ bytesBe 8 (8 * m.length)) ∧
    a.length % 64 = 0 ∧ x.length = 56 := by
  generalize hbody : m ++ 0x80#8 :: List.replicate (padZeroBytes m.length) 0x00#8 = body
  have hl : body.length = 56 ∨ body.length = 120 := by
    rw [← hbody]
    simp only [List.length_append, List.length_cons, List.length_replicate, padZeroBytes]
    split_ifs <;> omega
  refine ⟨body.take (body.length - 56), body.drop (body.length - 56), ?_, ?_, ?_⟩
  · rw [← List.append_assoc, List.take_append_drop, ← hbody, pad]
  · rw [List.length_take]; omega
  · rw [List.length_drop]; omega

theorem getLast?_blocksOf_append {a q : List Byte} (ha : a.length % 64 = 0) (hq : q.length = 64) :
    (blocksOf (a ++ q)).getLast? = some q := by
  rw [blocksOf_append_short _ _ ha, blocksOf_block hq, List.getLast?_concat]

/-- Settles O52: cutting the number of a sequence gives the parts and their bytes, and the padder's last eight bytes
are the end of its last block. -/
theorem blockIsItsParts : Obligations.BlockIsItsParts := by
  refine ⟨fun blk h => ⟨be_eq_parts h, fun i j _ hi => ?_⟩, fun m hm => ?_⟩
  · have hj : 16 * i.val + j % 16 = j := hi ▸ Nat.div_add_mod j 16
    rw [← getElem?_eq_extract_part h i (Nat.mod_lt j (by omega)), hj]
  · obtain ⟨a, x, hpad, ha, hx⟩ := exists_pad_eq hm
    have hlen : be (bytesBe 8 (8 * m.length)) = 8 * m.length := be_bytesBe (by omega)
    refine ⟨x ++ bytesBe 8 (8 * m.length), ?_, ?_⟩
    · rw [hpad, getLast?_blocksOf_append ha (by simp [hx])]
    · rw [toNat_part_three_low_append hx (length_bytesBe _ _), hlen]

/-! The commands that only read (R46). -/

/-- A read where it is legal appends one response, and which one does not depend on the responses before it. -/
theorem exec_read {i : Instr} {s : State}
    (h : i = .rds ∨ (i = .padq ∧ s.ph = .absorb) ∨ ((i = .rdd ∨ i = .rdx) ∧ s.ph = .done)) :
    ∃ r, ∀ rs, exec i { s with responses := rs } = .next { s with responses := rs ++ [r] } := by
  rcases h with rfl | ⟨rfl, hp⟩ | ⟨rfl | rfl, hp⟩
  · exact ⟨statusOk :: bytesBe 2 s.status.toNat, fun rs =>
      exec_runs (i := .rds) (by cases s.ph <;> simp [legalPhases]) nofun nofun⟩
  · exact ⟨statusOk :: s.padded, fun rs => exec_runs (i := .padq) (by simp [legalPhases, hp]) nofun nofun⟩
  · exact ⟨statusOk :: bytesBe 32 s.cval.toNat, fun rs =>
      exec_runs (i := .rdd) (by simp [legalPhases, hp]) nofun nofun⟩
  · exact ⟨statusOk :: hex64 s.cval, fun rs => exec_runs (i := .rdx) (by simp [legalPhases, hp]) nofun nofun⟩

/-- Settles O37: the second read finds the state of the first but for a response, which no read looks at. -/
theorem readsAreIdempotent : Obligations.ReadsAreIdempotent := by
  intro i s h
  obtain ⟨r, hr⟩ := exec_read h
  exact ⟨r, hr s.responses, by simpa using hr (s.responses ++ [r])⟩

end Machine
end Sys2Proof

/-! 30_encoding: transactions and commands, the operands, and the response to a transaction (R60 to R76). -/

namespace Sys2Proof

/-! The transaction of a command (R61 to R66). -/

theorem Instr.length_payload {i : Instr} (hw : i.wellFormed = true) : i.payload.length + 1 = i.opcode.length := by
  cases i with
  | seed v => exact (Laws.Framing.seed v hw).2
  | wrk blk => exact (Laws.Framing.wrk blk hw).2
  | rst | rds | wrb | fin | padq | rdd | rdx => rfl

@[simp] theorem Instr.assemble_payload (i : Instr) : i.opcode.assemble i.payload = i := by
  cases i with
  | seed v => simp [Instr.opcode, Instr.payload, Opcode.assemble]
  | rst | rds | wrb | wrk | fin | padq | rdd | rdx => rfl

/-- Settles O1: the payload has the length the opcode asks for, and assembling it gives the operand back. -/
theorem decodeUndoesEncode : Obligations.DecodeUndoesEncode := by
  intro i hw
  rw [encode, decode_byte_cons, if_pos (Instr.length_payload hw), Instr.assemble_payload]

/-- 32 bytes make a u256, with nothing lost (R63). -/
theorem toNat_ofNat_be {p : List Byte} (h : p.length = 32) : (BitVec.ofNat 256 (be p)).toNat = be p := by
  have hlt := be_lt p
  rw [h] at hlt
  rw [BitVec.toNat_ofNat, Nat.mod_eq_of_lt (by simpa using hlt)]

theorem Opcode.payload_assemble {op : Opcode} {p : List Byte} (h : p.length + 1 = op.length) :
    (op.assemble p).payload = p := by
  cases op with
  | rst | rds | fin | padq | rdd | rdx => exact (List.eq_nil_of_length_eq_zero (Nat.succ.inj h)).symm
  | seed =>
    have hp : p.length = 32 := Nat.succ.inj h
    simp only [Opcode.assemble, Instr.payload, toNat_ofNat_be hp]
    rw [← hp, bytesBe_be]
  | wrb => obtain ⟨b, rfl⟩ := List.length_eq_one_iff.mp (Nat.succ.inj h); rfl
  | wrk => rfl

/-- Settles O2: the operand assembled from a payload of the right length spells that payload. -/
theorem encodeUndoesDecode : Obligations.EncodeUndoesDecode := by
  intro t i h
  obtain ⟨op, p, rfl, hl, rfl⟩ := decode_eq_command h
  exact ⟨by rw [encode, Opcode.opcode_assemble, Opcode.payload_assemble hl], wellFormed_of_decode h⟩

/-- Settles O3, by running the decoder. -/
theorem specWordsDecode : Obligations.SpecWordsDecode := by
  unfold Obligations.SpecWordsDecode
  decide

theorem Opcode.byte_mem (op : Opcode) :
    op.byte ∈ [0x10#8, 0x11#8, 0x20#8, 0x30#8, 0x31#8, 0x40#8, 0x41#8, 0x50#8, 0x51#8] := by
  cases op <;> decide

/-- A byte that is none of the nine opcodes is illegal, whatever follows (R67). -/
theorem decode_cons_of_not_mem {b : Byte} (p : List Byte)
    (h : b ∉ [0x10#8, 0x11#8, 0x20#8, 0x30#8, 0x31#8, 0x40#8, 0x41#8, 0x50#8, 0x51#8]) :
    decode (b :: p) = .illegal := by
  cases hop : Opcode.ofByte b with
  | none => simp only [decode, hop]
  | some op => exact absurd (Opcode.byte_of_ofByte hop ▸ op.byte_mem) h

/-- A defined opcode in a transaction of another length is malformed (R68). -/
theorem decode_byte_cons_of_ne {op : Opcode} {p : List Byte} (h : p.length ≠ op.length - 1) :
    decode (op.byte :: p) = .badLength := by
  rw [decode_byte_cons, if_neg (by omega)]

namespace Machine

/-! The operands of SEED and WRK (R63, R65). -/

theorem pow_256_eq {m n : Nat} (h : 8 * m = n) : 256 ^ m = 2 ^ n := by
  rw [show (256 : Nat) = 2 ^ 8 by norm_num, ← pow_mul, h]

/-- Lane `i` of a 32-byte number is the number of its bytes `8i` to `8i+7`. -/
theorem toNat_laneOf_be {p : List Byte} (hp : p.length = 32) {v : U256} (hv : v.toNat = be p) (i : Fin 4) :
    (laneOf v i).toNat = be ((p.drop (8 * i.val)).take 8) := by
  rw [toNat_laneOf, be_take_drop p _ 8 (by omega), hv, hp, pow_256_eq (m := 8) rfl,
    pow_256_eq (n := 192 - 64 * i.val) (by omega)]

/-- Byte `k` of a 32-byte number is its bits `255-8k` to `248-8k`. -/
theorem getElem?_eq_extract_be {p : List Byte} (hp : p.length = 32) {v : U256} (hv : v.toNat = be p) {k : Nat}
    (hk : k < 32) : p[k]? = some (v.extractLsb' (248 - 8 * k) 8) := by
  rw [getElem?_eq_ofNat_be (hp ▸ hk), hp, pow_256_eq (n := 248 - 8 * k) (by omega), ← hv]
  congr 1
  apply BitVec.eq_of_toNat_eq
  rw [BitVec.extractLsb'_toNat, BitVec.toNat_ofNat, Nat.shiftRight_eq_div_pow]

/-- SEED is legal in every phase but FAULT (10_state R34). -/
theorem exec_seed {s : State} (h : s.ph ≠ .fault) (v : U256) : exec (.seed v) s = .next (effect (.seed v) s) := by
  refine exec_runs ?_ nofun nofun
  cases hp : s.ph with
  | fault => exact absurd hp h
  | idle | absorb | done => simp [legalPhases]

/-- Settles O4: the operand loses no bit of the payload, so its bytes and its lanes are read off the number. -/
theorem seedOperandIsBigEndian : Obligations.SeedOperandIsBigEndian := by
  intro p hp
  have hv := toNat_ofNat_be hp
  have hlane := toNat_laneOf_be hp hv
  refine ⟨BitVec.ofNat 256 (be p), ?_, hv, fun k => getElem?_eq_extract_be hp hv, fun s hs => ?_⟩
  · exact (decode_byte_cons .seed p).trans (if_pos (congrArg (· + 1) hp))
  · exact ⟨_, exec_seed hs _, hlane 0, hlane 1, hlane 2, hlane 3⟩

/-- Settles O5: the payload is the operand, and byte 0 of the transaction shifts its offsets by one. -/
theorem wrkOperandIsBlock : Obligations.WrkOperandIsBlock := by
  intro p hp
  refine ⟨(decode_byte_cons .wrk p).trans (if_pos (congrArg (· + 1) hp)), fun i => ?_⟩
  rw [toNat_part p i hp, Nat.add_comm, List.drop_succ_cons]

/-! The step on a transaction, and the wait (R60, R66 to R71). -/

section
variable {s : State} {t : List Byte} {rest : List PortInput} (hport : s.port = .transaction t :: rest)
include hport

theorem step_of_command {i : Instr} (h : decode t = .command i) : step s = exec i (s.setPort rest) := by
  simp only [step_transaction hport, h]

theorem step_of_illegal (h : decode t = .illegal) : step s = .next ((s.setPort rest).rejectTransaction .illegal) := by
  simp only [step_transaction hport, h]

theorem step_of_badLength (h : decode t = .badLength) :
    step s = .next ((s.setPort rest).rejectTransaction .length) := by
  simp only [step_transaction hport, h]

end

/-- What a rejected transaction does, field by field (60_exceptions R185, R186). -/
theorem step_eq_of_rejects {s : State} {rest : List PortInput} {e : Error}
    (h : step s = .next ((s.setPort rest).rejectTransaction e)) :
    (s.ph ≠ .fault → step s = .next
      { s with port := rest, ph := .fault, errc := e.code, responses := s.responses ++ [[e.code]] }) ∧
    (s.ph = .fault → step s = .next { s with port := rest, responses := s.responses ++ [[0x05#8]] }) :=
  ⟨fun hf => h.trans (congrArg _ (State.rejectTransaction_of_not_fault (s := s.setPort rest) hf e)),
    fun hf => h.trans (congrArg _ (State.rejectTransaction_of_fault (s := s.setPort rest) hf e))⟩

/-- Settles O9: such a transaction decodes to `Illegal`, and the step rejects it. -/
theorem illegalTransactionRaises : Obligations.IllegalTransactionRaises := by
  intro s t rest hport ht
  have hd : decode t = .illegal := by
    obtain rfl | ⟨b, p, rfl, hb⟩ := ht
    · rfl
    · exact decode_cons_of_not_mem p hb
  exact step_eq_of_rejects (step_of_illegal hport hd)

/-- Settles O10: such a transaction decodes to `BadLength`, and the step rejects it. -/
theorem wrongLengthRaises : Obligations.WrongLengthRaises := by
  intro s b p rest hport hb
  have hd : decode (b :: p) = .badLength := by
    obtain ⟨hmem, hl⟩ | ⟨rfl, hl⟩ | ⟨rfl, hl⟩ | ⟨rfl, hl⟩ := hb
    · simp only [List.mem_cons, List.not_mem_nil, or_false] at hmem
      obtain rfl | rfl | rfl | rfl | rfl | rfl := hmem
      · exact decode_byte_cons_of_ne (op := .rst) hl
      · exact decode_byte_cons_of_ne (op := .rds) hl
      · exact decode_byte_cons_of_ne (op := .fin) hl
      · exact decode_byte_cons_of_ne (op := .padq) hl
      · exact decode_byte_cons_of_ne (op := .rdd) hl
      · exact decode_byte_cons_of_ne (op := .rdx) hl
    · exact decode_byte_cons_of_ne (op := .wrb) hl
    · exact decode_byte_cons_of_ne (op := .seed) hl
    · exact decode_byte_cons_of_ne (op := .wrk) hl
  exact step_eq_of_rejects (step_of_badLength hport hd)

/-- Settles O6: the step of a decoded transaction is the command, after the port has been read. -/
theorem stepRunsDecodedCommand : Obligations.StepRunsDecodedCommand := fun _ _ _ _ hport hd =>
  ⟨wellFormed_of_decode hd, step_of_command hport hd⟩

theorem decode_of_decodeTableWord {nbits w : Nat} {i : Instr} (h : decodeTableWord nbits w = some i) :
    decode (tableTransaction nbits w) = .command i := by
  cases hd : decode (tableTransaction nbits w) with
  | command j => simpa [decodeTableWord, hd] using h
  | illegal | badLength => simp [decodeTableWord, hd] at h

/-- Settles O7: taking the word from the port leaves the state it was put on. -/
theorem fetchWordIsRunNext : Obligations.FetchWordIsRunNext := by
  intro s nbits w i h
  have hport : (s.withFetchWord nbits w).port = .transaction (tableTransaction nbits w) :: s.port := rfl
  exact step_of_command hport (decode_of_decodeTableWord h)

theorem takeInput_unfinished_of_ne {x : PortInput} (p : List Byte) (rest : List PortInput) (h : x ≠ .reset) :
    takeInput (.unfinished p :: x :: rest) = .waiting := by
  cases x with
  | reset => exact absurd rfl h
  | transaction | unfinished => rfl

/-- Settles O14: in each of the three cases there is nothing to take. -/
theorem waitingChangesNothing : Obligations.WaitingChangesNothing := by
  intro s h
  have hw : takeInput s.port = .waiting := by
    obtain h | ⟨p, h⟩ | ⟨p, x, rest, h, hx⟩ := h <;> rw [h]
    · rfl
    · rfl
    · exact takeInput_unfinished_of_ne p rest hx
  simp only [step, hw]

/-! The response to a transaction (R72). -/

/-- The data a command answers where it has its effect. -/
def answerData : Instr → State → List Byte
  | .rds, s => bytesBe 2 s.status.toNat
  | .padq, s => s.padded
  | .rdd, s => bytesBe 32 s.cval.toNat
  | .rdx, s => hex64 s.cval
  | .rst, _ => []
  | .seed _, _ => []
  | .wrb _, _ => []
  | .wrk _, _ => []
  | .fin, _ => []

theorem effect_responses_eq (i : Instr) (s : State) :
    (effect i s).responses = s.responses ++ [0x00#8 :: answerData i s] := by
  cases i <;> simp [effect, answerData, statusOk]

/-- `t` has one response more than `s`: an error status, with no data. -/
def State.AnswersError (s t : State) : Prop :=
  ∃ st : Byte, st ≠ 0x00#8 ∧ st.toNat ≤ 5 ∧ t.responses = s.responses ++ [[st]]

theorem State.raise_answersError (s : State) (e : Error) : s.AnswersError (s.raise e) :=
  ⟨e.code, e.code_ne_zero, by cases e <;> decide, rfl⟩

theorem State.answerFaulted_answersError (s : State) : s.AnswersError s.answerFaulted :=
  ⟨statusFaulted, by decide, by decide, rfl⟩

theorem State.rejectTransaction_answersError (s : State) (e : Error) : s.AnswersError (s.rejectTransaction e) := by
  by_cases hf : s.ph = .fault
  · rw [State.rejectTransaction_of_fault hf]; exact s.answerFaulted_answersError
  · rw [State.rejectTransaction_of_not_fault hf]; exact s.raise_answersError e

theorem exec_answersError_or_effect {i : Instr} {s t : State} (h : exec i s = .next t) :
    s.AnswersError t ∨ t = effect i s := by
  cases exec_next h with
  | faulted => exact .inl s.answerFaulted_answersError
  | phase | align => exact .inl (s.raise_answersError _)
  | runs => exact .inr rfl

/-- A step that takes a transaction answers an error, or has the effect of the command it decodes to. -/
theorem step_answersError_or_effect {s v : State} {t : List Byte} {rest : List PortInput}
    (hport : s.port = .transaction t :: rest) (h : step s = .next v) :
    s.AnswersError v ∨ ∃ i, decode t = .command i ∧ v = effect i (s.setPort rest) := by
  cases hd : decode t with
  | illegal =>
    rw [step_of_illegal hport hd] at h
    cases h; exact .inl ((s.setPort rest).rejectTransaction_answersError _)
  | badLength =>
    rw [step_of_badLength hport hd] at h
    cases h; exact .inl ((s.setPort rest).rejectTransaction_answersError _)
  | command i =>
    rw [step_of_command hport hd] at h
    exact (exec_answersError_or_effect h).imp_right fun he => ⟨i, rfl, he⟩

@[simp] theorem length_hex64 (v : U256) : (hex64 v).length = 64 := by simp [hex64]

theorem State.length_padded (s : State) : s.padded.length = if s.cnt.toNat ≤ 55 then 64 else 128 := by
  have hlt := s.cnt.isLt
  rw [State.padded, length_pad, State.length_bufBytes, padZeroBytes]
  split_ifs <;> omega

/-- Settles O36: an error is answered with no data, and an effect with the data of its command. -/
theorem oneResponseEach : Obligations.OneResponseEach := by
  intro s v t rest hport h
  obtain ⟨st, hne, hle, hr⟩ | ⟨i, hd, rfl⟩ := step_answersError_or_effect hport h
  · exact ⟨st, [], hr, hle, fun _ => rfl, fun h0 => absurd h0 hne⟩
  · refine ⟨0x00#8, answerData i (s.setPort rest), effect_responses_eq i _, by decide, fun hne => absurd rfl hne,
      fun _ => ⟨i, hd, ?_, ?_, ?_, ?_, ?_⟩⟩
    · rintro (rfl | ⟨v, rfl⟩ | ⟨b, rfl⟩ | ⟨blk, rfl⟩ | rfl) <;> rfl
    · rintro rfl; exact ⟨rfl, length_bytesBe _ _⟩
    · rintro rfl; exact ⟨rfl, length_bytesBe _ _⟩
    · rintro rfl; exact ⟨rfl, length_hex64 _⟩
    · rintro rfl; exact ⟨rfl, State.length_padded _⟩

/-! The pseudo-commands COMPRESS and PAD (R76). -/

theorem execAll_cons_of_next {i : Instr} {s t : State} (h : exec i s = .next t) (is : List Instr) :
    execAll (i :: is) s = execAll is t := by
  simp only [execAll, h]

theorem exec_wrb {s : State} (hp : s.ph = .absorb) (b : Byte) : exec (.wrb b) s = .next (effect (.wrb b) s) :=
  exec_runs (by simp [legalPhases, hp]) nofun nofun

/-- ABSORB carries the stream on by its bytes, each answered OK. -/
theorem Absorbed.absorbCommands {cv0 : U256} {earlier : List Event} {S : List Byte} {s : State}
    (h : Absorbed cv0 earlier S s) (m : List Byte) :
    ∃ t, execAll (absorbCommands m) s = .next t ∧ Absorbed cv0 earlier (S ++ m) t ∧
      t.responses = s.responses ++ List.replicate m.length [0x00#8] := by
  induction m generalizing S s with
  | nil => exact ⟨s, rfl, by simpa using h, by simp⟩
  | cons b m ih =>
    obtain ⟨t, he, ha, hr⟩ := ih (h.wrb b)
    refine ⟨t, (execAll_cons_of_next (exec_wrb h.ph b) _).trans he, by simpa using ha, ?_⟩
    rw [hr]
    simp [statusOk, List.replicate_succ]

/-- A stream of less than a block is all in BUF. -/
theorem Absorbed.padded_of_lt {cv0 : U256} {earlier : List Event} {S : List Byte} {s : State}
    (h : Absorbed cv0 earlier S s) (hS : S.length < 64) : s.padded = pad S := by
  have hb := h.bytes
  rw [Nat.div_eq_of_lt hS] at hb
  rw [State.padded, h.cnt, hb]
  rfl

theorem exec_wrk_of_boundary {s : State} (hp : s.ph = .absorb) (hc : s.cnt = 0) {blk : List Byte}
    (hb : blk.length = 64) : exec (.wrk blk) s = .next (effect (.wrk blk) s) :=
  exec_runs (by simp [legalPhases, hp]) (fun _ hi => by cases hi; exact ⟨hc, hb⟩) nofun

theorem exec_fin_of_boundary {s : State} (hp : s.ph = .absorb) (hc : s.cnt = 0) :
    exec .fin s = .next (effect .fin s) :=
  exec_runs (by simp [legalPhases, hp]) nofun (fun _ _ => by simp [hc])

theorem exec_padq {s : State} (hp : s.ph = .absorb) : exec .padq s = .next (effect .padq s) :=
  exec_runs (by simp [legalPhases, hp]) nofun nofun

theorem exec_rdd {s : State} (hp : s.ph = .done) : exec .rdd s = .next (effect .rdd s) :=
  exec_runs (by simp [legalPhases, hp]) nofun nofun

/-- On a block boundary FIN leaves the chaining value (42_driver_commands R144). -/
theorem effect_fin_cval_of_boundary {s : State} (hc : s.cnt = 0) : (effect .fin s).cval = s.cval := by
  simp [effect, State.absorbFinal_cval, hc]

/-- COMPRESS loads the value, compresses the one block and ends on a block boundary. -/
theorem execAll_compress {s : State} (hs : s.ph ≠ .fault) {blk : List Byte} (hb : blk.length = 64) (cv : U256) :
    ∃ t, execAll (PseudoCommand.compress blk cv).expand s = .next (effect .rdd t) ∧ t.cval = compress blk cv ∧
      t.responses = s.responses ++ [[0x00#8], [0x00#8], [0x00#8]] := by
  have hc : (effect (.wrk blk) (effect (.seed cv) s)).cnt = 0 := by simp [effect]
  have hp : (effect (.wrk blk) (effect (.seed cv) s)).ph = .absorb := effect_ph ..
  refine ⟨effect .fin (effect (.wrk blk) (effect (.seed cv) s)), ?_, ?_, ?_⟩
  · rw [PseudoCommand.expand, execAll_cons_of_next (exec_seed hs cv),
      execAll_cons_of_next (exec_wrk_of_boundary rfl rfl hb), execAll_cons_of_next (exec_fin_of_boundary hp hc),
      execAll_cons_of_next (exec_rdd (effect_ph ..)), execAll]
  · rw [effect_fin_cval_of_boundary hc]
    simp [effect]
  · simp [effect_responses_eq, answerData]

/-- Settles O59: COMPRESS ends with the block's chaining value in the lanes, and PAD with all of its bytes in BUF. -/
theorem pseudoCommandsAnswerFunctions : Obligations.PseudoCommandsAnswerFunctions := by
  refine ⟨fun s blk cv hs hb => ?_, fun s m hs hm => ?_⟩
  · obtain ⟨t, he, hcv, hr⟩ := execAll_compress hs hb cv
    exact ⟨effect .rdd t, _, he, by rw [effect_responses_eq, answerData, hcv, hr]⟩
  · obtain ⟨t, he, ha, hr⟩ := (Absorbed.seed s 0).absorbCommands m
    refine ⟨effect .padq t, [0x00#8] :: List.replicate m.length [0x00#8], ?_, ?_⟩
    · rw [PseudoCommand.expand, execAll_cons_of_next (exec_seed hs 0), execAll_append, he]
      exact execAll_cons_of_next (exec_padq ha.ph) []
    · rw [effect_responses_eq, hr, effect_responses_eq]
      simp [answerData, ha.padded_of_lt (S := [] ++ m) hm]

end Machine
end Sys2Proof

/-! 40_padder: how much zero the padder appends, its bit form and its byte form, and PADQ (R100 to R108). -/

namespace Sys2Proof.Machine

/-! The zero bits of step 3 of R100 (R101). -/

/-- The number of zero bits step 3 appends after `r` bytes: R101's `(447 - 8r) mod 512`, without the sign. -/
def padZeroBits (r : Nat) : Nat := (959 - 8 * r) % 512

/-- Seven zero bits end the byte 0x80, and the others are whole bytes (R102). -/
theorem padZeroBits_eq {r : Nat} (h : r ≤ 63) : padZeroBits r = 7 + 8 * padZeroBytes r := by
  simp only [padZeroBits, padZeroBytes]
  split_ifs <;> omega

theorem padZeroBits_fits {r : Nat} (h : r ≤ 63) : (8 * r + 1 + padZeroBits r + 64) % 512 = 0 := by
  simp only [padZeroBits]
  omega

/-- Fewer zeros do not fit: two numbers below 512 that both do are equal. -/
theorem padZeroBits_least {r y : Nat} (h : r ≤ 63) (hy : y < padZeroBits r) : (8 * r + 1 + y + 64) % 512 ≠ 0 := by
  have hfits := padZeroBits_fits h
  have hlt : padZeroBits r < 512 := Nat.mod_lt _ (by omega)
  omega

theorem length_bits_marked (m : List Byte) : (bits m ++ [true]).length = 8 * m.length + 1 := by
  rw [List.length_append, length_bits, List.length_singleton]

/-- Step 3 of R100 on a chunk of the domain. -/
theorem padZeros_bits {m : List Byte} (h : m.length ≤ 63) : padZeros Config.targetBits (bits m ++ [true]) =
    bits m ++ [true] ++ List.replicate (padZeroBits m.length) false := by
  have hlt : padZeroBits m.length < 512 := Nat.mod_lt _ (by omega)
  refine padZeros_eq hlt.le ?_ fun y hy => ?_ <;> rw [length_bits_marked]
  · exact padZeroBits_fits h
  · exact padZeroBits_least h hy

/-- Settles O44: the loop stops at the first count of zeros that fits. -/
theorem padZeroBitCount : Obligations.PadZeroBitCount := by
  intro m h
  have hz : padZeroBits m.length = (959 - 8 * m.length) % 512 := rfl
  exact ⟨padZeroBits m.length, padZeros_bits h, by omega, by omega, fun _ => by omega, fun _ => by omega,
    padZeroBits_fits h, fun _ => padZeroBits_least h⟩

/-! The byte form and the bit form (R102). -/

theorem pad_eq (m : List Byte) : pad m =
    m ++ [0x80#8] ++ List.replicate (padZeroBytes m.length) 0x00#8 ++ bytesBe 8 (8 * m.length) := by
  simp [pad]

/-- The byte 0x80 and the zero bytes are the marker bit and the zero bits of R100. -/
theorem bits_marker_zeros (n : Nat) :
    bits (0x80#8 :: List.replicate n 0x00#8) = true :: List.replicate (7 + 8 * n) false := by
  have hmarker : byteBits 0x80#8 = true :: List.replicate 7 false := by decide
  rw [bits_cons, bits_zeros, hmarker, List.cons_append, List.replicate_append_replicate]

/-- The bits that steps 1 to 4 of R100 put together are those of the byte form. -/
theorem bits_pad {m : List Byte} (h : m.length ≤ 63) : bits (pad m) =
    padZeros Config.targetBits (bits m ++ [true]) ++ bitsBe Config.lenBits (8 * m.length) := by
  rw [padZeros_bits h, padZeroBits_eq h, pad, bits_append, bits_append, bits_marker_zeros, bits_bytesBe]
  simp [Config.lenBits]

theorem padByBits_eq_pad {m : List Byte} (h : m.length ≤ 63) : padByBits m = pad m := by
  rw [padByBits, ← bits_pad h, unbits_bits]

/-- Settles O43: both forms have the same bits, and regrouping bits gives the bytes back. -/
theorem padBytesEqualsPadBits : Obligations.PadBytesEqualsPadBits := by
  rintro m nz h rfl
  rw [padByBits_eq_pad h]
  exact ⟨pad_eq m, rfl⟩

/-! The properties of the result (R103, R107). -/

theorem length_pad_of_le {m : List Byte} (h : m.length ≤ 55) : (pad m).length = 64 := by
  rw [length_pad, padZeroBytes, if_pos h]
  omega

theorem length_pad_of_ge {m : List Byte} (h : 56 ≤ m.length) (h' : m.length ≤ 63) : (pad m).length = 128 := by
  rw [length_pad, padZeroBytes, if_neg (by omega)]
  omega

/-- Settles O45: nine bytes and the zero bytes of R102 are appended. -/
theorem padLength : Obligations.PadLength := fun _ => ⟨length_pad_of_le, length_pad_of_ge⟩

/-- The length field is the last eight bytes (R104). -/
theorem be_drop_pad {m : List Byte} (h : m.length ≤ 63) : be ((pad m).drop ((pad m).length - 8)) = 8 * m.length := by
  rw [pad, List.length_append, length_bytesBe, Nat.add_sub_cancel, List.drop_left, be_bytesBe (by omega)]

theorem take_pad (m : List Byte) : (pad m).take m.length = m := by
  rw [pad, List.append_assoc, List.take_left]

theorem getElem?_pad_length (m : List Byte) : (pad m)[m.length]? = some 0x80#8 := by
  simp [pad]

theorem pad_injective {m m' : List Byte} (h : m.length ≤ 63) (h' : m'.length ≤ 63) (hp : pad m = pad m') :
    m = m' := by
  have hlen : 8 * m.length = 8 * m'.length := by rw [← be_drop_pad h, hp, be_drop_pad h']
  rw [← take_pad m, ← take_pad m', hp, show m.length = m'.length by omega]

/-- Settles O46: the last eight bytes give the length of the chunk, and the first ones the chunk. -/
theorem padRoundTrip : Obligations.PadRoundTrip := by
  refine ⟨fun m h => ⟨?_, be_drop_pad h, take_pad m, getElem?_pad_length m⟩, fun _ _ => pad_injective⟩
  rcases Nat.lt_or_ge m.length 56 with hlt | hge
  · exact ⟨1, by omega, by rw [length_pad_of_le (by omega)]⟩
  · exact ⟨2, by omega, by rw [length_pad_of_ge hge h]⟩

/-! PADQ (R108). -/

/-- What the padding engine makes of the buffered bytes, in the form of R102. -/
theorem State.padded_eq (s : State) : s.padded = s.bufBytes s.cnt.toNat ++ [0x80#8] ++
    List.replicate (padZeroBytes s.cnt.toNat) 0x00#8 ++ bytesBe 8 (8 * s.cnt.toNat) := by
  rw [State.padded, pad_eq, State.length_bufBytes]

theorem effect_padq (s : State) : effect .padq s = { s with responses := s.responses ++ [0x00#8 :: s.padded] } := rfl

/-- Settles O26: where PADQ is legal it has its effect, and elsewhere it is rejected. -/
theorem padqAnswersPadding : Obligations.PadqAnswersPadding := by
  rintro s r nz rfl rfl
  refine ⟨by decide, fun hp => ?_, fun hp => ?_, fun hp => ?_⟩
  · rw [exec_padq hp, effect_padq, State.padded_eq, padZeroBytes]
  · rcases hp with hp | hp <;> exact exec_phase (by simp [hp]) (by simp [legalPhases, hp])
  · exact exec_faulted hp (by simp [legalPhases, hp])

end Sys2Proof.Machine

/-! 41_compressor: the rotation and its halves, the compression function on natural numbers, and WRK (R120 to R136). -/

namespace Sys2Proof.Machine

/-! The rotation inside a part (R122). -/

theorem rotl128_eq_rotateLeft (x : U128) {k : Nat} (h : k < 128) : rotl128 x k = x.rotateLeft k := by
  rw [rotl128, BitVec.rotateLeft, BitVec.rotateLeftAux, Nat.mod_eq_of_lt h]

/-- Bit `j` of the rotated value comes from `k` places below it, circularly. -/
theorem getLsbD_rotl128 (x : U128) {j k : Nat} (hk : k < 128) (hj : j < 128) :
    (rotl128 x k).getLsbD j = x.getLsbD ((j + (128 - k)) % 128) := by
  rw [rotl128_eq_rotateLeft x hk, BitVec.getLsbD_rotateLeft_of_le hk]
  by_cases h : j < k
  · rw [Nat.mod_eq_of_lt (by omega), Nat.add_comm j]
    simp [h]
  · rw [show (j + (128 - k)) % 128 = j - k by omega]
    simp [h, hj]

/-- The rotation on natural numbers: the right shift of a 128-bit number is below 2^128 already. -/
theorem toNat_rotl128 (x : U128) (k : Nat) :
    (rotl128 x k).toNat = (x.toNat <<< k ||| x.toNat >>> (128 - k)) % 2 ^ 128 := by
  have hlt : x.toNat >>> (128 - k) < 2 ^ 128 := (Nat.shiftRight_le _ _).trans_lt x.isLt
  rw [Nat.or_mod_two_pow, Nat.mod_eq_of_lt hlt, rotl128, BitVec.toNat_or, BitVec.toNat_shiftLeft,
    BitVec.toNat_ushiftRight]

/-- Settles O49: a rotation by 3 and one by 125 move a bit by 128 places, which is none. -/
theorem rotationRoundTrip : Obligations.RotationRoundTrip := by
  refine ⟨fun x k _ hk => ⟨toNat_rotl128 x k, fun j hj => ?_⟩, fun x => ?_⟩
  · rw [getLsbD_rotl128 x hk (Nat.mod_lt _ (by decide)), show ((j + k) % 128 + (128 - k)) % 128 = j by omega]
  · apply BitVec.eq_of_getLsbD_eq
    intro j hj
    rw [getLsbD_rotl128 _ (by decide) hj, getLsbD_rotl128 _ (by decide) (Nat.mod_lt _ (by decide)),
      show ((j + (128 - 125)) % 128 + (128 - 3)) % 128 = j by omega]

/-! The halves of a rotated part (R124). -/

theorem toNat_upperHalf (x : U128) : (x.extractLsb' 64 64).toNat = x.toNat >>> 64 := by
  have hlt : x.toNat >>> 64 < 2 ^ 64 := by rw [Nat.shiftRight_eq_div_pow]; omega
  rw [BitVec.extractLsb'_toNat, Nat.mod_eq_of_lt hlt]

theorem toNat_lowerHalf (x : U128) : (x.extractLsb' 0 64).toNat = x.toNat % 2 ^ 64 := by
  rw [BitVec.extractLsb'_toNat, Nat.shiftRight_zero]

theorem upperHalf_rotl128 (x : U128) : (rotl128 x 3).extractLsb' 64 64 = x.extractLsb' 61 64 := by
  apply BitVec.eq_of_getLsbD_eq
  intro j hj
  rw [BitVec.getLsbD_extractLsb', BitVec.getLsbD_extractLsb', getLsbD_rotl128 x (by decide) (by omega),
    show (64 + j + (128 - 3)) % 128 = 61 + j by omega]

/-- The three top bits come round to the bottom, below the others. -/
theorem lowerHalf_rotl128 (x : U128) :
    (rotl128 x 3).extractLsb' 0 64 = x.extractLsb' 0 61 ++ x.extractLsb' 125 3 := by
  apply BitVec.eq_of_getLsbD_eq
  intro j hj
  simp only [BitVec.getLsbD_append, BitVec.getLsbD_extractLsb', Nat.zero_add]
  rw [getLsbD_rotl128 x (by decide) (by omega)]
  by_cases h : j < 3
  · rw [show (j + (128 - 3)) % 128 = 125 + j by omega]
    simp [h, hj]
  · rw [show (j + (128 - 3)) % 128 = j - 3 by omega]
    simp [h, hj, show j - 3 < 61 by omega]

/-- Settles O50: the halves cut the rotated part in two, and each of their bits comes from three places below. -/
theorem rotatedHalves : Obligations.RotatedHalves := fun x =>
  ⟨toNat_upperHalf _, toNat_lowerHalf _, upperHalf_rotl128 x, lowerHalf_rotl128 x⟩

/-! The new lanes (R120, R125 to R129). -/

/-- `lower64` of step 3b of R120 for part `i`. -/
def lower64 (blk : List Byte) (i : Fin 4) : U64 := (rotl128 (part blk i) 3).extractLsb' 0 64

/-- `upper64` of step 3b of R120 for part `i`. -/
def upper64 (blk : List Byte) (i : Fin 4) : U64 := (rotl128 (part blk i) 3).extractLsb' 64 64

theorem newLane_eq (blk : List Byte) (cv : U256) (i : Fin 4) : newLane blk cv i =
    (lower64 blk i ^^^ laneOf cv i) * (lower64 blk i ^^^ laneOf cv i) ^^^ (upper64 blk i + laneOf cv (i + 1)) :=
  (rfl)

/-- A new lane on natural numbers, with a modulus after each addition and product. -/
theorem toNat_newLane (blk : List Byte) (cv : U256) (i : Fin 4) :
    let mixedLower := (rotl128 (part blk i) 3).toNat % 2 ^ 64 ^^^ (laneOf cv i).toNat
    let mixedUpper := ((rotl128 (part blk i) 3).toNat / 2 ^ 64 + (laneOf cv (i + 1)).toNat) % 2 ^ 64
    (newLane blk cv i).toNat = mixedLower * mixedLower % 2 ^ 64 ^^^ mixedUpper := by
  intro mixedLower mixedUpper
  rw [newLane_eq, BitVec.toNat_xor, BitVec.toNat_mul, BitVec.toNat_add, BitVec.toNat_xor, lower64, toNat_lowerHalf,
    upper64, toNat_upperHalf, Nat.shiftRight_eq_div_pow]

/-- Settles O48: each lane is its own equation, and the four joined are the sum with their places. -/
theorem compressInNaturals : Obligations.CompressInNaturals := by
  intro blk cv hblk p c n hp hc hn
  have hlane (i : Fin 4) : (newLane blk cv i).toNat = n i := by
    have hpart : (part blk i).toNat = p i := by rw [hp, toNat_part blk i hblk]
    have hcv (i : Fin 4) : (laneOf cv i).toNat = c i := by rw [hc, toNat_laneOf]
    have hnext : (i + 1 : Fin 4).val = (i.val + 1) % 4 := Fin.val_add i 1
    rw [toNat_newLane, toNat_rotl128, hpart, hcv, hcv, hnext, hn]
  rw [compress, toNat_joinLanes, hlane, hlane, hlane, hlane]
  rfl

/-! Collisions (R131, R136). -/

theorem laneOf_zero (i : Fin 4) : laneOf 0 i = 0#64 := BitVec.extractLsb'_zero

/-- A number and its two's complement have the same square (R131), so with chaining value 0 the sign of a `lower64` does
not matter. -/
theorem compress_zero_eq_of_neg {q q' : List Byte}
    (h : ∀ i, lower64 q' i = -lower64 q i ∧ upper64 q' i = upper64 q i) : compress q 0 = compress q' 0 := by
  have hlane (i : Fin 4) : newLane q 0 i = newLane q' 0 i := by
    obtain ⟨hlow, hup⟩ := h i
    rw [newLane_eq, newLane_eq, hlow, hup, laneOf_zero, BitVec.xor_zero, BitVec.xor_zero, BitVec.neg_mul_neg]
  simp only [compress, hlane]

/-- Settles O51: the blocks CK and CL of 95_test_vectors, which collide, have a `lower64` of 1 and of -1 in part 0, and
0 in the other halves. -/
theorem compressCollides : Obligations.CompressCollides :=
  ⟨by decide, 0x20#8 :: List.replicate 63 0x00#8,
    0xe0#8 :: List.replicate 7 0x00#8 ++ 0x1f#8 :: List.replicate 7 0xff#8 ++ List.replicate 48 0x00#8,
    rfl, rfl, by decide, compress_zero_eq_of_neg (by decide)⟩

/-! WRK (R133, R135). -/

/-- A term of WRK that is no command stops where a command would run. -/
theorem exec_wrk_of_bad_block {blk : List Byte} {s : State} (hp : s.ph = .absorb) (hc : s.cnt = 0)
    (hb : blk.length ≠ 64) : exec (.wrk blk) s = .fault .invariantViolation := by
  have hl : s.ph ∈ legalPhases (.wrk blk) := by simp [legalPhases, hp]
  have ho := exec_outcomes (.wrk blk) s
  generalize exec (.wrk blk) s = o at ho
  cases ho with
  | faulted _ hn => exact absurd hl hn
  | phase _ hn => exact absurd hl hn
  | blocked _ hblocked =>
    cases hblocked with
    | align _ _ hne => exact absurd hc hne
    | block => rfl
  | runs _ ha => exact absurd (ha blk rfl).2 hb

/-- Settles O39: such a term is neither rejected nor run. -/
theorem badBlockStops : Obligations.BadBlockStops := fun _ _ => exec_wrk_of_bad_block

theorem effect_wrk (blk : List Byte) (s : State) : effect (.wrk blk) s = { s with
    cv0 := laneOf (compress blk s.cval) 0, cv1 := laneOf (compress blk s.cval) 1,
    cv2 := laneOf (compress blk s.cval) 2, cv3 := laneOf (compress blk s.cval) 3,
    trace := s.trace ++ [.compress blk s.cval (compress blk s.cval)],
    responses := s.responses ++ [[0x00#8]] } := (rfl)

/-- Settles O20: WRK has its effect on a block boundary, and is rejected elsewhere. -/
theorem wrkCompresses : Obligations.WrkCompresses := by
  intro blk s hblk
  have hd : decode (0x31#8 :: blk) = .command (.wrk blk) :=
    (decode_byte_cons .wrk blk).trans (if_pos (by rw [hblk, Opcode.length]))
  refine ⟨hd, fun hp hc => ⟨_, rfl, ?_⟩, fun hp hc => exec_wrk_align hp hc, fun hp => ?_, fun hp => ?_⟩
  · exact (exec_wrk_of_boundary hp hc hblk).trans (congrArg _ (effect_wrk blk s))
  · rcases hp with hp | hp <;> exact exec_phase (by simp [hp]) (by simp [legalPhases, hp])
  · exact exec_faulted hp (by simp [legalPhases, hp])

end Sys2Proof.Machine

/-! 42_driver_commands: the commands SEED, WRB, FIN, RDD and RDX, the two ways to send a block, and the host procedure
(R140 to R162). -/

namespace Sys2Proof.Machine

/-- A command that is legal in one phase is rejected in the other three (10_state R34). -/
theorem exec_rejects_of_one_phase {i : Instr} {p q q' : Phase} (h : legalPhases i = [p])
    (hn : [p, q, q', .fault].Nodup) (s : State) :
    (s.ph = q ∨ s.ph = q' → exec i s = .next { s with
      ph := .fault, errc := 0x03#8, responses := s.responses ++ [[0x03#8]] }) ∧
    (s.ph = .fault → exec i s = .next { s with responses := s.responses ++ [[0x05#8]] }) := by
  simp only [List.nodup_cons, List.mem_cons, List.not_mem_nil, or_false, not_or] at hn
  obtain ⟨⟨hpq, hpq', hpf⟩, ⟨-, hqf⟩, hqf', -⟩ := hn
  refine ⟨fun hs => exec_phase ?_ ?_, fun hs => exec_faulted hs ?_⟩
  · obtain hs | hs := hs <;> rwa [hs]
  · obtain hs | hs := hs <;> simp [h, hs, Ne.symm hpq, Ne.symm hpq']
  · simp [h, hs, Ne.symm hpf]

/-! SEED (R140). -/

theorem effect_seed (v : U256) (s : State) : effect (.seed v) s = { s with
    cv0 := laneOf v 0, cv1 := laneOf v 1, cv2 := laneOf v 2, cv3 := laneOf v 3, cnt := 0, ph := .absorb,
    responses := s.responses ++ [[0x00#8]] } := (rfl)

/-- Settles O18: SEED has its effect outside FAULT, and its transaction is the one its encoding spells. -/
theorem seedLoads : Obligations.SeedLoads := fun v s =>
  ⟨decodeUndoesEncode (.seed v) rfl, fun hp => (exec_seed hp v).trans (congrArg _ (effect_seed v s)),
    fun hp => exec_faulted hp (by simp [legalPhases, hp])⟩

/-! WRB (R141). -/

theorem effect_wrb_of_lt {s : State} (b : Byte) (h : s.cnt.toNat < 63) : effect (.wrb b) s = { s with
    buf := s.buf.write s.cnt.toNat b, cnt := BitVec.ofNat 6 (s.cnt.toNat + 1),
    responses := s.responses ++ [[0x00#8]] } := by
  have hcnt : BitVec.ofNat 6 (s.cnt.toNat + 1) = s.cnt + 1 := BitVec.eq_of_toNat_eq (by simp [BitVec.toNat_add])
  rw [effect, State.appendByte_of_lt b h, hcnt, State.respond, State.setCnt, State.storeByte, statusOk]

theorem effect_wrb_of_full {s : State} {b : Byte} {blk : List Byte} (h : s.cnt.toNat = 63)
    (hblk : blk = s.bufBytes 63 ++ [b]) : effect (.wrb b) s = { s with
      buf := s.buf.write 63 b, cnt := 0,
      cv0 := laneOf (compress blk s.cval) 0, cv1 := laneOf (compress blk s.cval) 1,
      cv2 := laneOf (compress blk s.cval) 2, cv3 := laneOf (compress blk s.cval) 3,
      trace := s.trace ++ [.compress blk s.cval (compress blk s.cval)],
      responses := s.responses ++ [[0x00#8]] } := by
  subst hblk
  rw [effect, State.appendByte_of_full b h, State.absorbBlock, State.storeByte_cval, State.respond, State.setCnt,
    State.emit, State.setCval, State.storeByte, statusOk]

/-- Settles O19: the two cases of R141 are the two effects of WRB. -/
theorem wrbAppends : Obligations.WrbAppends := by
  intro b s
  refine ⟨decodeUndoesEncode (.wrb b) rfl, fun hp h => ?_, fun hp h => ⟨_, _, rfl, rfl, ?_⟩,
    fun a => Memory.read_write s.buf s.cnt.toNat a b, exec_rejects_of_one_phase rfl (by decide) s⟩
  · rw [exec_wrb hp, effect_wrb_of_lt b h]
  · exact (exec_wrb hp b).trans (congrArg _ (effect_wrb_of_full h rfl))

/-! FIN (R143 to R146). -/

/-- FIN runs in ABSORB at every count but those SPILL_POLICY = Refuse leaves out (00_scope R7). -/
theorem exec_fin {s : State} (hp : s.ph = .absorb) (h : s.spillPolicy = .twoBlocks ∨ s.cnt.toNat < 56) :
    exec .fin s = .next (effect .fin s) :=
  exec_runs (by simp [legalPhases, hp]) nofun (fun _ hr => by simpa [hr] using h)

theorem exec_fin_refused {s : State} (hp : s.ph = .absorb) (hr : s.spillPolicy = .refuse) (h : 56 ≤ s.cnt.toNat) :
    exec .fin s = .refused .spillRefused := by
  have hl : s.ph ∈ legalPhases .fin := by simp [legalPhases, hp]
  have ho := exec_outcomes .fin s
  generalize exec .fin s = o at ho
  cases ho with
  | faulted _ hn => exact absurd hl hn
  | phase _ hn => exact absurd hl hn
  | blocked _ hb => cases hb with
    | spill => rfl
  | runs _ _ hs => exact absurd (hs rfl hr) (by omega)

/-- The fields FIN writes: the lanes, CNT, PH, the trace and the response (R143). -/
theorem effect_fin (s : State) : effect .fin s = { s.setCval s.absorbFinal.cval with
    cnt := 0, ph := .done, trace := s.absorbFinal.trace, responses := s.responses ++ [[0x00#8]] } :=
  State.eq_of_fields (State.setCval_cval s _).symm s.absorbFinal_buf rfl rfl s.absorbFinal_errc s.absorbFinal_port
    (congrArg (· ++ [[0x00#8]]) s.absorbFinal_responses) rfl s.absorbFinal_spillPolicy s.absorbFinal_draws

/-- Settles O22: what FIN does to the lanes and to the trace is what it does with the buffered bytes. -/
theorem finFinishes : Obligations.FinFinishes := by
  rintro s p new rfl rfl
  refine ⟨decodeUndoesEncode .fin rfl, fun hp hs => ?_, exec_rejects_of_one_phase rfl (by decide) s⟩
  rw [exec_fin hp (.inl hs), effect_fin, State.absorbFinal_cval, State.absorbFinal_trace]
  rfl

/-- On a block boundary FIN moves PH and nothing else (R144). -/
theorem effect_fin_of_boundary {s : State} (hc : s.cnt = 0) :
    effect .fin s = { s with ph := .done, responses := s.responses ++ [[0x00#8]] } := by
  rw [effect, State.absorbFinal_of_zero hc, show s.setCnt 0 = s by rw [← hc]; rfl]
  rfl

/-- Settles O23: with nothing buffered FIN moves PH and nothing else, and SEED leaves nothing buffered. -/
theorem finOnBoundaryOnlyEnds : Obligations.FinOnBoundaryOnlyEnds := by
  refine ⟨fun s hp hc => (exec_fin_of_boundary hp hc).trans (congrArg _ (effect_fin_of_boundary hc)),
    fun s v hs => ⟨effect .fin (effect (.seed v) s), ?_, rfl, ?_, ?_⟩⟩
  · rw [execAll_cons_of_next (exec_seed hs v), execAll_cons_of_next (exec_fin_of_boundary rfl rfl), execAll]
  · rw [effect_fin_cval_of_boundary rfl]
    exact joinLanes_laneOf v
  · rw [effect_fin_of_boundary rfl]
    rfl

/-- FIN on buffered bytes whose padding is the blocks `qs` compresses those, and keeps the rest (R143). -/
theorem effect_fin_of_blocks {s : State} {qs : List (List Byte)} (hc : s.cnt ≠ 0) (hq : blocksOf s.padded = qs) :
    effect .fin s = { s.setCval (qs.foldl (fun cv q => compress q cv) s.cval) with
      cnt := 0, ph := .done, trace := s.trace ++ .pad s.cnt.toNat :: compressEvents s.cval qs,
      responses := s.responses ++ [[0x00#8]] } := by
  rw [effect_fin, State.absorbFinal_cval, State.absorbFinal_trace, if_neg hc, if_neg hc, hq]

theorem State.cnt_ne_zero_of_pos {s : State} (h : 0 < s.cnt.toNat) : s.cnt ≠ 0 := by
  intro hc
  simp [hc] at h

/-- Settles O24: up to 55 buffered bytes are padded to one block. -/
theorem finOneBlock : Obligations.FinOneBlock := by
  rintro s r blk rfl hp h1 h55 hblk
  have hpad : s.padded = blk := by rw [State.padded_eq, padZeroBytes, if_pos h55, hblk]
  have hlen : blk.length = 64 := by rw [← hpad, State.length_padded, if_pos h55]
  have hq : blocksOf s.padded = [blk] := by rw [hpad, blocksOf_block hlen]
  have he := effect_fin_of_blocks (State.cnt_ne_zero_of_pos h1) hq
  simp only [List.foldl_cons, List.foldl_nil, compressEvents] at he
  exact ⟨hlen, _, (exec_fin hp (.inr (by omega))).trans (congrArg _ he), joinLanes_laneOf _, rfl, rfl, rfl, rfl, rfl,
    rfl, rfl, rfl⟩

/-- From 56 bytes on the zeros of the padding run over the end of the first block. -/
theorem pad_eq_append_of_ge {m : List Byte} (h : 56 ≤ m.length) (h' : m.length ≤ 63) : pad m =
    (m ++ [0x80#8] ++ List.replicate (63 - m.length) 0x00#8) ++
      (List.replicate 56 0x00#8 ++ bytesBe 8 (8 * m.length)) := by
  rw [pad_eq, padZeroBytes, if_neg (by omega), show 119 - m.length = 63 - m.length + 56 by omega,
    ← List.replicate_append_replicate]
  simp only [List.append_assoc]

/-- Settles O25: 56 to 63 buffered bytes are padded to the two blocks. -/
theorem finSpillsTwoBlocks : Obligations.FinSpillsTwoBlocks := by
  rintro s r first second mid rfl hp h56 hfirst hsecond rfl
  have hlt := s.cnt.isLt
  have hl1 : first.length = 64 := by simp [hfirst]; omega
  have hl2 : second.length = 64 := by simp [hsecond]
  have hpad : s.padded = first ++ second := by
    rw [State.padded, pad_eq_append_of_ge (by simpa using h56) (by simp; omega), State.length_bufBytes, hfirst, hsecond]
  have hq : blocksOf s.padded = [first, second] := by rw [hpad, blocksOf_append hl1, blocksOf_block hl2]
  have he := effect_fin_of_blocks (State.cnt_ne_zero_of_pos (by omega)) hq
  simp only [List.foldl_cons, List.foldl_nil, compressEvents] at he
  exact ⟨hl1, hl2, fun hs => ⟨_, (exec_fin hp (.inl hs)).trans (congrArg _ he), joinLanes_laneOf _, rfl, rfl, rfl,
    rfl, rfl, rfl, rfl, rfl⟩, fun hr => exec_fin_refused hp hr h56⟩

/-! RDD and RDX (R150, R151). -/

theorem exec_rdx {s : State} (hp : s.ph = .done) : exec .rdx s = .next (effect .rdx s) :=
  exec_runs (by simp [legalPhases, hp]) nofun nofun

/-- The bytes of the chaining value are those of its lanes, lane 0 first. -/
theorem bytesBe_cval (s : State) : bytesBe 32 s.cval.toNat =
    bytesBe 8 s.cv0.toNat ++ bytesBe 8 s.cv1.toNat ++ bytesBe 8 s.cv2.toNat ++ bytesBe 8 s.cv3.toNat := by
  have hlt (x : U64) : x.toNat < 256 ^ 8 := x.isLt
  rw [← bytesBe_append 8 8 _ _ (hlt s.cv1), ← bytesBe_append 16 8 _ _ (hlt s.cv2),
    ← bytesBe_append 24 8 _ _ (hlt s.cv3), State.cval, toNat_joinLanes]
  refine congrArg (bytesBe 32) ?_
  ring

/-- Settles O27: in DONE RDD answers the bytes of the chaining value. -/
theorem rddReadsDigest : Obligations.RddReadsDigest := by
  intro s
  refine ⟨decodeUndoesEncode .rdd rfl, fun hp => ?_, exec_rejects_of_one_phase rfl (by decide) s⟩
  rw [exec_rdd hp, ← bytesBe_cval, effect, State.respond, statusOk]

/-- Settles O28: in DONE RDX has its effect, and elsewhere it is rejected. -/
theorem rdxReadsHexDigest : Obligations.RdxReadsHexDigest := fun s =>
  ⟨decodeUndoesEncode .rdx rfl, fun hp => exec_rdx hp, exec_rejects_of_one_phase rfl (by decide) s⟩

/-! The digest string (R156). -/

theorem getElem?_hex64 (v : U256) {k : Nat} (h : k < 64) :
    (hex64 v)[k]? = some (hexChar (v.extractLsb' (252 - 4 * k) 4).toNat) := by
  rw [BitVec.extractLsb'_toNat, Nat.shiftRight_eq_div_pow]
  simp [hex64, h]

/-- The two digits of a byte, high nibble first. -/
def hexPair (b : Byte) : List Byte := [hexChar (b.toNat / 16), hexChar (b.toNat % 16)]

/-- The `2n` digits of a number, most significant first, are those of its `n` bytes. -/
theorem hexDigits_eq_flatMap (n v : Nat) :
    ((List.range (2 * n)).map fun k => hexChar (v / 16 ^ (2 * n - (k + 1)) % 16)) = (bytesBe n v).flatMap hexPair := by
  induction n with
  | zero => rfl
  | succ n ih =>
    have hpow : 16 ^ (2 * n) = 256 ^ n := pow_mul 16 2 n
    have hhigh : v / 16 ^ (2 * n + 1) % 16 = v / 256 ^ n % 256 / 16 := by
      rw [pow_succ, hpow, ← Nat.div_div_eq_div_mul]
      omega
    have hlow : v / 16 ^ (2 * n) % 16 = v / 256 ^ n % 256 % 16 := by
      rw [hpow]
      omega
    rw [bytesBe, List.flatMap_cons, ← ih, show 2 * (n + 1) = 2 * n + 2 by ring, List.range_succ_eq_map,
      List.range_succ_eq_map]
    simp [hexPair, hhigh, hlow]

/-- Settles O29: digit `k` is a nibble of the value, and two of them are one of its bytes. -/
theorem hexSpellsBytes : Obligations.HexSpellsBytes := by
  refine ⟨length_hex64, ?_, fun v => ?_⟩
  · rintro v k hk d rfl
    rw [getElem?_hex64 v hk, hexChar]
    exact ⟨fun h => by rw [if_pos h], fun h => by rw [if_neg (by omega)]⟩
  · refine Eq.trans (List.map_congr_left fun k hk => ?_) (hexDigits_eq_flatMap 32 v.toNat)
    have hpow : 2 ^ (252 - 4 * k) = 16 ^ (2 * 32 - (k + 1)) := by
      rw [List.mem_range] at hk
      rw [show (16 : Nat) = 2 ^ 4 by norm_num, ← pow_mul]
      congr 1
      omega
    rw [hpow]

/-! What a run of commands keeps from its first state to its last. -/

/-- `t` comes after `s` by commands other than RST: FAULT is not left, and a core that is not in FAULT has kept ERRC. -/
structure State.LeadsTo (s t : State) : Prop where
  notFault : t.ph ≠ .fault → s.ph ≠ .fault
  errc : t.ph ≠ .fault → t.errc = s.errc
  port : t.port = s.port
  spillPolicy : t.spillPolicy = s.spillPolicy
  draws : t.draws = s.draws

theorem State.LeadsTo.refl (s : State) : s.LeadsTo s := ⟨id, fun _ => rfl, rfl, rfl, rfl⟩

theorem State.LeadsTo.trans {s t u : State} (h : s.LeadsTo t) (h' : t.LeadsTo u) : s.LeadsTo u where
  notFault hu := h.notFault (h'.notFault hu)
  errc hu := (h'.errc hu).trans (h.errc (h'.notFault hu))
  port := h'.port.trans h.port
  spillPolicy := h'.spillPolicy.trans h.spillPolicy
  draws := h'.draws.trans h.draws

theorem State.leadsTo_raise (s : State) (e : Error) : s.LeadsTo (s.raise e) :=
  ⟨fun h => absurd rfl h, fun h => absurd rfl h, rfl, rfl, rfl⟩

theorem effect_ne_fault {i : Instr} {s : State} (hr : i ≠ .rst) (hl : s.ph ∈ legalPhases i)
    (h : (effect i s).ph ≠ .fault) : s.ph ≠ .fault := by
  intro hf
  rw [hf] at hl
  cases i with
  | rst => exact hr rfl
  | rds => exact h hf
  | seed | wrb | wrk | fin | padq | rdd | rdx => simp [legalPhases] at hl

theorem effect_errc {i : Instr} (hr : i ≠ .rst) (s : State) : (effect i s).errc = s.errc := by
  cases i with
  | rst => exact absurd rfl hr
  | _ => simp [effect]

theorem effect_draws {i : Instr} (hr : i ≠ .rst) (s : State) : (effect i s).draws = s.draws := by
  cases i with
  | rst => exact absurd rfl hr
  | _ => simp [effect]

theorem effect_port (i : Instr) (s : State) : (effect i s).port = s.port := by
  cases i <;> simp [effect]

theorem effect_spillPolicy (i : Instr) (s : State) : (effect i s).spillPolicy = s.spillPolicy := by
  cases i <;> simp [effect]

theorem State.leadsTo_effect {i : Instr} {s : State} (hr : i ≠ .rst) (hl : s.ph ∈ legalPhases i) :
    s.LeadsTo (effect i s) :=
  ⟨effect_ne_fault hr hl, fun _ => effect_errc hr s, effect_port i s, effect_spillPolicy i s, effect_draws hr s⟩

theorem exec_leadsTo {i : Instr} {s t : State} (h : exec i s = .next t) (hr : i ≠ .rst) : s.LeadsTo t := by
  cases exec_next h with
  | faulted => exact ⟨id, fun _ => rfl, rfl, rfl, rfl⟩
  | phase | align => exact s.leadsTo_raise _
  | runs hl => exact State.leadsTo_effect hr hl

theorem execAll_cons_eq_next {i : Instr} {is : List Instr} {s t : State} (h : execAll (i :: is) s = .next t) :
    ∃ u, exec i s = .next u ∧ execAll is u = .next t := by
  rw [execAll] at h
  split at h
  · exact ⟨_, ‹_›, h⟩
  · cases h
  · cases h

theorem execAll_append_eq_next {xs ys : List Instr} {s t : State} (h : execAll (xs ++ ys) s = .next t) :
    ∃ u, execAll xs s = .next u ∧ execAll ys u = .next t := by
  rw [execAll_append] at h
  split at h
  · exact ⟨_, ‹_›, h⟩
  · cases h
  · cases h

theorem execAll_append_of_next {xs : List Instr} {s t : State} (h : execAll xs s = .next t) (ys : List Instr) :
    execAll (xs ++ ys) s = execAll ys t := by
  rw [execAll_append, h]

theorem execAll_leadsTo {is : List Instr} {s t : State} (h : execAll is s = .next t) (hr : Instr.rst ∉ is) :
    s.LeadsTo t := by
  induction is generalizing s with
  | nil => cases h; exact .refl _
  | cons i is ih =>
    obtain ⟨u, hu, ht⟩ := execAll_cons_eq_next h
    rw [List.mem_cons, not_or] at hr
    exact (exec_leadsTo hu (Ne.symm hr.1)).trans (ih ht hr.2)

/-! The stream (R142). -/

/-- Every state in ABSORB with nothing buffered is one in which no byte of a new stream has come. -/
theorem Absorbed.of_boundary {s : State} (hp : s.ph = .absorb) (hc : s.cnt = 0) : Absorbed s.cval s.trace [] s :=
  ⟨hp, by rw [blocksOf_nil]; rfl, by simp [hc], rfl, by rw [blocksOf_nil]; simp [compressEvents]⟩

/-- Settles O54: both ways carry the stream on by the block, and the rest of the state no command of a run writes. -/
theorem sixtyFourBytesAreABlock : Obligations.SixtyFourBytesAreABlock := by
  intro s blk hp hc hb
  have hs := Absorbed.of_boundary hp hc
  have hu := hs.wrk blk hb hc
  have hwrk := exec_wrk_of_boundary hp hc hb
  obtain ⟨t, ht, hat, hrt⟩ := hs.absorbCommands blk
  have hkt := execAll_leadsTo ht (by simp [absorbCommands])
  have hku := exec_leadsTo hwrk nofun
  have hnt : t.ph ≠ .fault := by simp [hat.ph]
  have hnu : (effect (.wrk blk) s).ph ≠ .fault := by simp [effect, hp]
  refine ⟨t, _, ht, hwrk, hb ▸ hrt, by simp [effect_responses_eq, answerData], ?_⟩
  exact State.eq_of_fields (hat.cval.trans hu.cval.symm) rfl (BitVec.eq_of_toNat_eq (hat.cnt.trans hu.cnt.symm))
    (hat.ph.trans hu.ph.symm) ((hkt.errc hnt).trans (hku.errc hnu).symm) (hkt.port.trans hku.port.symm) rfl
    (hat.trace.trans hu.trace.symm) (hkt.spillPolicy.trans hku.spillPolicy.symm) (hkt.draws.trans hku.draws.symm)

section
variable {cv0 : U256} {earlier : List Event} {S : List Byte} {s t : State}

/-- A stream command that does not end in FAULT carries the stream on by the bytes it carries. -/
theorem Absorbed.streamCommand {i : Instr} (h : Absorbed cv0 earlier S s) (hi : carriesStream i = true)
    (he : exec i s = .next t) (ht : t.ph ≠ .fault) : Absorbed cv0 earlier (S ++ streamBytes i) t := by
  cases exec_next he with
  | faulted hp => exact absurd hp ht
  | phase | align => exact absurd rfl ht
  | runs _ hk _ =>
    cases i with
    | wrb b => exact h.wrb b
    | wrk q => exact h.wrk q (hk q rfl).2 (hk q rfl).1
    | _ => simp [carriesStream] at hi

theorem rst_not_mem_of_carriesStream {cmds : List Instr} (hi : ∀ i, i ∈ cmds → carriesStream i = true) :
    Instr.rst ∉ cmds := fun h => nomatch hi _ h

/-- So does a sequence of them. -/
theorem Absorbed.streamCommands {cmds : List Instr} (h : Absorbed cv0 earlier S s)
    (hi : ∀ i, i ∈ cmds → carriesStream i = true) (he : execAll cmds s = .next t) (ht : t.ph ≠ .fault) :
    Absorbed cv0 earlier (S ++ cmds.flatMap streamBytes) t := by
  induction cmds generalizing S s with
  | nil => cases he; simpa using h
  | cons i cmds ih =>
    rw [List.forall_mem_cons] at hi
    obtain ⟨u, hu, hut⟩ := execAll_cons_eq_next he
    have hn : u.ph ≠ .fault := (execAll_leadsTo hut (rst_not_mem_of_carriesStream hi.2)).notFault ht
    simpa using ih (h.streamCommand hi.1 hu hn) hi.2 hut

/-- SEED and then stream commands that do not end in FAULT absorb the bytes these carry. -/
theorem absorbed_of_execAll_seed {cmds : List Instr} (hi : ∀ i, i ∈ cmds → carriesStream i = true)
    (hs : s.ph ≠ .fault) (he : execAll (.seed cv0 :: cmds) s = .next t) (ht : t.ph ≠ .fault) :
    Absorbed cv0 s.trace (cmds.flatMap streamBytes) t := by
  rw [execAll_cons_of_next (exec_seed hs cv0)] at he
  exact (Absorbed.seed s cv0).streamCommands hi he ht

end

/-- Settles O55: a run that ends in ABSORB has carried the stream on by the bytes of every command. -/
theorem absorbedStateFollowsBytes : Obligations.AbsorbedStateFollowsBytes := by
  rintro s t cv0 cmds S hi rfl hs he ht
  have h := absorbed_of_execAll_seed hi hs he (by simp [ht])
  exact ⟨h.cval, h.cnt, h.bytes, h.trace⟩

/-! FIN after a stream (R161). -/

/-- What the whole blocks of a stream leave of it. -/
theorem length_drop_blocks (S : List Byte) : (S.drop (64 * (S.length / 64))).length = S.length % 64 := by
  rw [List.length_drop]
  omega

theorem drop_blocks_eq_nil_iff (S : List Byte) : S.drop (64 * (S.length / 64)) = [] ↔ S.length % 64 = 0 := by
  rw [← length_drop_blocks, List.length_eq_zero_iff]

section
variable {cv0 : U256} {earlier : List Event} {S : List Byte} {s : State} (h : Absorbed cv0 earlier S s)
include h

theorem Absorbed.padded : s.padded = pad (S.drop (64 * (S.length / 64))) := by
  rw [State.padded, h.cnt, h.bytes]

theorem Absorbed.cnt_eq_zero_iff : s.cnt = 0 ↔ S.length % 64 = 0 := by
  rw [← h.cnt]
  exact BitVec.toNat_inj.symm

/-- FIN leaves the digest of the stream in the lanes. -/
theorem Absorbed.fin_cval : (effect .fin s).cval = digestBytes S cv0 := by
  have hv : (effect .fin s).cval = s.absorbFinal.cval := (rfl)
  rw [hv, State.absorbFinal_cval, h.padded, h.cval]
  simp only [digestBytes, streamBlocks, drop_blocks_eq_nil_iff, h.cnt_eq_zero_iff]
  split_ifs
  · rw [List.append_nil]
  · rw [List.foldl_append]

/-- FIN ends the events of the stream. -/
theorem Absorbed.fin_trace : (effect .fin s).trace = earlier ++ digestEvents S cv0 := by
  have ht : (effect .fin s).trace = s.absorbFinal.trace := (rfl)
  rw [ht, State.absorbFinal_trace, h.padded, h.cval, h.trace, List.append_assoc]
  simp only [digestEvents, drop_blocks_eq_nil_iff, h.cnt_eq_zero_iff, h.cnt, length_drop_blocks]

end

/-- Settles O56: FIN pads and compresses the rest of the stream absorbed before it. -/
theorem digestOfStream : Obligations.DigestOfStream := by
  rintro s t cv0 cmds S hi rfl hs he ht
  obtain ⟨u, hu, hfin⟩ := execAll_append_eq_next (xs := .seed cv0 :: cmds) he
  obtain ⟨v, hv, hvt⟩ := execAll_cons_eq_next hfin
  obtain rfl : v = t := by simpa [execAll] using hvt
  have hn : u.ph ≠ .fault := (exec_leadsTo hv nofun).notFault (by simp [ht])
  have h := absorbed_of_execAll_seed hi hs hu hn
  cases exec_next hv with
  | faulted hp => exact absurd hp hn
  | phase => cases ht
  | align _ hi => cases hi
  | runs => exact ⟨h.fin_cval, congrArg hex64 h.fin_cval, h.fin_trace⟩

/-! The host procedure (R160 to R162). -/

/-- WRK carries the stream on by its block, block after block, each answered OK. -/
theorem Absorbed.wrkCommands {cv0 : U256} {earlier : List Event} {S : List Byte} {s : State}
    (h : Absorbed cv0 earlier S s) (hc : s.cnt = 0) {qs : List (List Byte)} (hq : ∀ q, q ∈ qs → q.length = 64) :
    ∃ t, execAll (qs.map .wrk) s = .next t ∧ Absorbed cv0 earlier (S ++ qs.flatten) t ∧
      t.responses = s.responses ++ List.replicate qs.length [0x00#8] := by
  induction qs generalizing S s with
  | nil => exact ⟨s, rfl, by simpa using h, by simp⟩
  | cons q qs ih =>
    rw [List.forall_mem_cons] at hq
    obtain ⟨t, he, ha, hr⟩ := ih (h.wrk q hq.1 hc) (by simp [hc]) hq.2
    refine ⟨t, (execAll_cons_of_next (exec_wrk_of_boundary h.ph hc hq.1) _).trans he, by simpa using ha, ?_⟩
    rw [hr]
    simp [statusOk, List.replicate_succ]

/-- ABSORBK carries the stream on by its bytes, each block answered OK. -/
theorem Absorbed.absorbkCommands {cv0 : U256} {earlier : List Event} {S : List Byte} {s : State}
    (h : Absorbed cv0 earlier S s) (hc : s.cnt = 0) {m : List Byte} (hm : m.length % 64 = 0) :
    ∃ t, execAll (absorbkCommands m) s = .next t ∧ Absorbed cv0 earlier (S ++ m) t ∧
      t.responses = s.responses ++ List.replicate (m.length / 64) [0x00#8] := by
  have := h.wrkCommands hc (qs := blocksOf m) fun q hq => length_of_mem_blocksOf hq
  rwa [flatten_blocksOf m hm, length_blocksOf] at this

/-- The host procedure up to FIN absorbs the whole stream, and every response is OK. -/
theorem execAll_absorbs_stream {s : State} (hs : s.ph ≠ .fault) (S : List Byte) (cv0 : U256) :
    ∃ t, execAll (.seed cv0 :: (absorbkCommands (S.take (64 * (S.length / 64))) ++
        absorbCommands (S.drop (64 * (S.length / 64))))) s = .next t ∧ Absorbed cv0 s.trace S t ∧
      t.responses = s.responses ++ List.replicate (1 + S.length / 64 + S.length % 64) [0x00#8] := by
  obtain ⟨m, r, hS, hm, hr, hlm, hlr, -⟩ := exists_blocks_and_rest S
  obtain ⟨u, hu, hau, hru⟩ := (Absorbed.seed s cv0).absorbkCommands rfl (m := m) (by omega)
  obtain ⟨t, ht, hat, hrt⟩ := hau.absorbCommands r
  rw [List.nil_append, ← hS] at hat
  rw [hlm, Nat.mul_div_cancel_left _ (by omega)] at hru
  rw [← hm, ← hr]
  refine ⟨t, ?_, hat, ?_⟩
  · rw [execAll_cons_of_next (exec_seed hs cv0), execAll_append_of_next hu, ht]
  · rw [hrt, hru, hlr, effect_responses_eq, answerData, ← List.replicate_one]
    simp only [List.append_assoc, List.replicate_append_replicate, Nat.add_assoc]

/-- The host procedure runs, to FIN and RDX after the stream. -/
theorem execAll_digest {s : State} (hs : s.ph ≠ .fault) (S : List Byte) (cv0 : U256)
    (hf : s.spillPolicy = .twoBlocks ∨ S.length % 64 < 56) :
    ∃ t, execAll (PseudoCommand.digest S cv0).expand s = .next (effect .rdx (effect .fin t)) ∧
      Absorbed cv0 s.trace S t ∧
      t.responses = s.responses ++ List.replicate (1 + S.length / 64 + S.length % 64) [0x00#8] := by
  obtain ⟨t, ht, ha, hr⟩ := execAll_absorbs_stream hs S cv0
  have hk := execAll_leadsTo ht (by simp [absorbCommands, absorbkCommands, -List.map_drop])
  rw [← hk.spillPolicy, ← ha.cnt] at hf
  refine ⟨t, ?_, ha, hr⟩
  rw [PseudoCommand.expand, ← List.append_assoc, ← List.cons_append, execAll_append_of_next ht,
    execAll_cons_of_next (exec_fin ha.ph hf), execAll_cons_of_next (exec_rdx rfl), execAll]

/-- Settles O57: FIN leaves the digest in the lanes, RDX answers it, and the responses before that are OK. -/
theorem hostProcedureGivesDigest : Obligations.HostProcedureGivesDigest := by
  intro s S cv0 hs hf
  obtain ⟨t, he, ha, hr⟩ := execAll_digest hs S cv0 hf
  refine ⟨_, List.replicate (1 + S.length / 64 + S.length % 64 + 1) [0x00#8], he, rfl, ha.fin_cval, ha.fin_trace,
    fun _ => List.eq_of_mem_replicate, ?_⟩
  rw [effect_responses_eq, effect_responses_eq, answerData, answerData, ha.fin_cval, hr, List.replicate_succ']
  simp only [List.append_assoc]

/-- The blocks FIN compresses after a stream: those of its padded remainder, if there is one. -/
def finalBlocks (S : List Byte) : List (List Byte) :=
  if S.length % 64 = 0 then [] else blocksOf (pad (S.drop (64 * (S.length / 64))))

theorem digestEvents_eq (S : List Byte) (cv0 : U256) : digestEvents S cv0 =
    compressEvents cv0 (blocksOf S) ++ (if S.length % 64 = 0 then [] else [.pad (S.length % 64)]) ++
      compressEvents ((blocksOf S).foldl (fun cv q => compress q cv) cv0) (finalBlocks S) := by
  simp only [digestEvents, finalBlocks, drop_blocks_eq_nil_iff, length_drop_blocks]
  split_ifs
  · simp [compressEvents]
  · simp

theorem length_finalBlocks (S : List Byte) : (finalBlocks S).length =
    if S.length % 64 = 0 then 0 else if S.length % 64 ≤ 55 then 1 else 2 := by
  have hl := length_drop_blocks S
  rw [finalBlocks]
  split_ifs with h0 h55
  · rfl
  · rw [length_blocksOf, length_pad_of_le (by omega)]
  · rw [length_blocksOf, length_pad_of_ge (by omega) (by omega)]

theorem length_of_mem_finalBlocks {S q : List Byte} (h : q ∈ finalBlocks S) : q.length = 64 := by
  rw [finalBlocks] at h
  split_ifs at h
  · cases h
  · exact length_of_mem_blocksOf h

/-- Settles O58: the events of the digest are those of the stream's blocks, of PAD and of the padded rest. -/
theorem eventCounts : Obligations.EventCounts := by
  rintro s S cv0 k r hs rfl rfl hf
  obtain ⟨t, oks, he, -, -, htrace, -⟩ := hostProcedureGivesDigest s S cv0 hs hf
  refine ⟨t, blocksOf S, finalBlocks S, he, length_blocksOf S, length_finalBlocks S, ?_, fun q hq => ?_⟩
  · rw [htrace, digestEvents_eq]
    simp only [List.append_assoc]
  · exact (List.mem_append.mp hq).elim length_of_mem_blocksOf length_of_mem_finalBlocks

end Sys2Proof.Machine

/-! 43_control_commands: RST and RDS (R170, R171). -/

namespace Sys2Proof.Machine

/-! RDS (R171) and STATUS (10_state R28). -/

theorem exec_rds (s : State) : exec .rds s = .next (effect .rds s) :=
  exec_runs (by cases s.ph <;> decide) nofun nofun

theorem Phase.toNat_code (p : Phase) :
    p = .idle ∧ p.code.toNat = 0 ∨ p = .absorb ∧ p.code.toNat = 1 ∨ p = .done ∧ p.code.toNat = 2 ∨
      p = .fault ∧ p.code.toNat = 3 := by
  cases p <;> decide

/-- STATUS as its two bytes: PH and CNT share the high one, ERRC is the low one. -/
theorem State.toNat_status (s : State) :
    s.status.toNat = (s.ph.code.toNat * 64 + s.cnt.toNat) * 256 + s.errc.toNat := by
  rw [State.status, toNat_append_eq_add, toNat_append_eq_add]
  norm_num

theorem bytesBe_one (v : Nat) : bytesBe 1 v = [BitVec.ofNat 8 v] := by simp [bytesBe]

theorem State.bytesBe_status (s : State) :
    bytesBe 2 s.status.toNat = [BitVec.ofNat 8 (s.ph.code.toNat * 64 + s.cnt.toNat), s.errc] := by
  rw [State.toNat_status, ← pow_one 256, bytesBe_append 1 1 _ _ s.errc.isLt, bytesBe_one, bytesBe_one,
    BitVec.ofNat_toNat, BitVec.setWidth_eq, List.singleton_append]

/-- Settles O17: RDS has its effect in every phase, and the two bytes it answers are those of STATUS. -/
theorem rdsReadsStatus : Obligations.RdsReadsStatus := by
  refine ⟨decodeUndoesEncode .rds rfl, fun s => ⟨s.ph.code.toNat, s.ph.toNat_code, ?_, ?_⟩,
    fun s p rest hp hport => wrongLengthRaises s _ p rest hport (.inl ⟨by decide, by simpa using hp⟩)⟩
  · rw [State.toNat_status]
    ring
  · rw [exec_rds, effect, State.bytesBe_status, State.respond, statusOk]

/-! RST (R170). -/

theorem exec_rst (s : State) : exec .rst s = .next (effect .rst s) :=
  exec_runs (by cases s.ph <;> decide) nofun nofun

/-- Settles O16: RST has its effect in every phase, which clears CNT, PH and ERRC and keeps the trace. -/
theorem rstResets : Obligations.RstResets :=
  ⟨decodeUndoesEncode .rst rfl, fun s => ⟨_, exec_rst s, rfl, rfl, rfl, rfl, rfl, rfl, rfl⟩,
    fun s p rest hp hport => wrongLengthRaises s _ p rest hport (.inl ⟨by decide, by simpa using hp⟩)⟩

end Sys2Proof.Machine

/-! 60_exceptions: the procedure every transaction is handled by, the entry to FAULT and the ways out of it (R180 to
R192). -/

namespace Sys2Proof.Machine

/-! E_ALIGN (R184). -/

/-- A command that answers 0x04 was WRK with bytes buffered. -/
theorem eq_wrk_of_answers_align {i : Instr} {s t : State} (h : exec i s = .next t)
    (hr : t.responses = s.responses ++ [[0x04#8]]) : (∃ blk, i = .wrk blk) ∧ s.ph = .absorb ∧ s.cnt ≠ 0 := by
  cases exec_next h with
  | faulted => exact absurd (List.append_cancel_left hr) (by decide)
  | phase => exact absurd (List.append_cancel_left hr) (by decide)
  | align blk hi hp hc => exact ⟨⟨blk, hi⟩, hp, hc⟩
  | runs =>
    obtain ⟨data, hd⟩ := effect_responses i s
    simp [hd] at hr

/-- Settles O21: the code 0x04 is answered on one branch only, and on it nothing else is changed. -/
theorem alignErrorOnlyFromWrk : Obligations.AlignErrorOnlyFromWrk := by
  refine fun i s _ => ⟨fun h => eq_wrk_of_answers_align h rfl, ?_⟩
  rintro ⟨⟨blk, rfl⟩, hp, hc⟩
  exact exec_wrk_align hp hc

/-! A transaction in FAULT (R185). -/

theorem fault_mem_legalPhases {i : Instr} : Phase.fault ∈ legalPhases i ↔ i = .rst ∨ i = .rds := by
  cases i <;> simp [legalPhases]

/-- In FAULT every transaction but RST and RDS is answered E_FAULTED, whatever it decodes to. -/
theorem step_of_fault {s : State} {t : List Byte} {rest : List PortInput} (hf : s.ph = .fault)
    (hport : s.port = .transaction t :: rest) (hrst : decode t ≠ .command .rst) (hrds : decode t ≠ .command .rds) :
    step s = .next (s.setPort rest).answerFaulted := by
  have hreject := State.rejectTransaction_of_fault (s := s.setPort rest) hf
  cases hd : decode t with
  | illegal => rw [step_of_illegal hport hd, hreject]
  | badLength => rw [step_of_badLength hport hd, hreject]
  | command i =>
    have hl : (s.setPort rest).ph ∉ legalPhases i := by
      rw [State.setPort_ph, hf, fault_mem_legalPhases]
      rintro (rfl | rfl)
      · exact hrst hd
      · exact hrds hd
    exact (step_of_command hport hd).trans (exec_faulted hf hl)

theorem eq_of_decode_eq_rst {t : List Byte} (h : decode t = .command .rst) : t = [0x10#8] :=
  (encodeUndoesDecode t .rst h).1.symm

theorem eq_of_decode_eq_rds {t : List Byte} (h : decode t = .command .rds) : t = [0x11#8] :=
  (encodeUndoesDecode t .rds h).1.symm

/-- Settles O11: no other transaction decodes to RST or to RDS. -/
theorem faultedAnswersOnly : Obligations.FaultedAnswersOnly := fun _ _ _ hf hport hrst hrds =>
  step_of_fault hf hport (fun h => hrst (eq_of_decode_eq_rst h)) (fun h => hrds (eq_of_decode_eq_rds h))

/-! The procedure (R189). -/

/-- Outside FAULT a command that does not raise E_PHASE is legal. -/
theorem phaseTable_eq_goes_phaseAfter {i : Instr} {p : Phase} (hf : p ≠ .fault)
    (h : phaseTable i.opcode p ≠ .ePhase) : phaseTable i.opcode p = .goes (phaseAfter i p) := by
  rw [phaseTable_eq, if_neg hf] at h
  rw [phaseTable_eq, if_neg hf]
  exact if_pos (by_contra fun hl => h (if_neg hl))

/-- Settles O8: the answers in FAULT, then the two rejections by the decoder, then the phase table's for a command. -/
theorem transactionProcedure : Obligations.TransactionProcedure := by
  rintro s u t rest hport rfl
  refine ⟨fun _ hd => step_of_command hport hd, fun _ hd => step_of_command hport hd,
    fun hf hrst hrds => step_of_fault hf hport hrst hrds,
    fun hf hd => (step_eq_of_rejects (step_of_illegal hport hd)).1 hf,
    fun hf hd => (step_eq_of_rejects (step_of_badLength hport hd)).1 hf,
    fun i _ hd hph => ?_, fun blk hp hd hc => ?_, fun i hf hd hph hk hs => ?_⟩
  · obtain ⟨hne, hl⟩ := phaseTable_eq_ePhase hph
    exact (step_of_command hport hd).trans (exec_phase hne hl)
  · exact (step_of_command hport hd).trans (exec_wrk_align hp hc)
  · obtain ⟨hruns, -⟩ := phaseTableHolds i (s.setPort rest) (wellFormed_of_decode hd)
    obtain ⟨v, data, hv, -, hr⟩ := hruns _ (phaseTable_eq_goes_phaseAfter hf hph) hk hs
    exact ⟨v, data, (step_of_command hport hd).trans hv, hv, hr⟩

/-! Fault entry (R186). -/

theorem phaseAfter_ne_fault {i : Instr} {p : Phase} (h : p ≠ .fault) : phaseAfter i p ≠ .fault := by
  cases i with
  | rst | seed | fin => simp [phaseAfter]
  | rds | wrb | wrk | padq | rdd | rdx => exact h

/-- A command enters FAULT by raising an error. -/
theorem exec_entersFault {i : Instr} {s t : State} (hf : s.ph ≠ .fault) (h : exec i s = .next t)
    (ht : t.ph = .fault) : ∃ e, t = s.raise e := by
  cases exec_next h with
  | faulted hp => exact absurd hp hf
  | phase => exact ⟨_, rfl⟩
  | align => exact ⟨_, rfl⟩
  | runs => exact absurd (effect_ph i s ▸ ht) (phaseAfter_ne_fault hf)

/-- A step enters FAULT by taking its input and raising an error. -/
theorem step_entersFault {s t : State} (hf : s.ph ≠ .fault) (h : step s = .next t) (ht : t.ph = .fault) :
    ∃ rest e, t = (s.setPort rest).raise e := by
  have hs := step_steps s
  generalize step s = o at h hs
  cases hs with
  | waits => cases h; exact absurd ht hf
  | reset => cases h; cases ht
  | reject _ rest e =>
    cases h
    exact ⟨rest, e, State.rejectTransaction_of_not_fault (s := s.setPort rest) hf e⟩
  | command _ rest => exact ⟨rest, exec_entersFault (s := s.setPort rest) hf h ht⟩

theorem Error.code_cases (e : Error) :
    e.code = 0x01#8 ∨ e.code = 0x02#8 ∨ e.code = 0x03#8 ∨ e.code = 0x04#8 := by cases e <;> decide

/-- Settles O12: raising an error writes PH and ERRC, answers the code, and does nothing more. -/
theorem faultEntryIsPrecise : Obligations.FaultEntryIsPrecise := by
  intro s t hf h ht
  obtain ⟨rest, e, rfl⟩ := step_entersFault hf h ht
  exact ⟨e.code, rest, e.code_cases, rfl⟩

/-! The ways out of FAULT (R191, R192). -/

/-- The core's next input is RST or the reset input. -/
def LeavesFault (p : List PortInput) : Prop :=
  ∃ rest, p = .transaction [0x10#8] :: rest ∨ p = .reset :: rest ∨ ∃ q, p = .unfinished q :: .reset :: rest

theorem not_leavesFault {p : List PortInput} : ¬ LeavesFault p ↔
    ∀ rest, p ≠ .transaction [0x10#8] :: rest ∧ p ≠ .reset :: rest ∧ ∀ q, p ≠ .unfinished q :: .reset :: rest := by
  simp only [LeavesFault, not_exists, not_or]

theorem takeInput_eq_reset {p rest : List PortInput} (h : takeInput p = .reset rest) :
    p = .reset :: rest ∨ ∃ q, p = .unfinished q :: .reset :: rest := by
  unfold takeInput at h
  split at h <;> cases h
  · exact .inl rfl
  · exact .inr ⟨_, rfl⟩

theorem step_of_waiting {s : State} (h : takeInput s.port = .waiting) : step s = .next s := by
  simp only [step, h]

theorem step_of_reset {s : State} {rest : List PortInput} (h : takeInput s.port = .reset rest) :
    step s = .next (s.setPort rest).hardwareReset := by
  simp only [step, h]

/-- RST and the reset input clear the core, in every phase. -/
theorem step_of_leavesFault {s : State} (h : LeavesFault s.port) :
    ∃ t, step s = .next t ∧ t.ph = .idle ∧ t.errc = 0x00#8 ∧ t.cnt = 0 := by
  obtain ⟨rest, h | h | ⟨q, h⟩⟩ := h
  · exact ⟨_, (step_of_command h rfl).trans (exec_rst _), rfl, rfl, rfl⟩
  · exact ⟨_, step_of_reset (rest := rest) (by rw [h, takeInput]), rfl, rfl, rfl⟩
  · exact ⟨_, step_of_reset (rest := rest) (by rw [h, takeInput]), rfl, rfl, rfl⟩

/-- With any other input, or none, a faulted core takes what it can and answers, and changes nothing. -/
theorem step_of_not_leavesFault {s : State} (hf : s.ph = .fault) (h : ¬ LeavesFault s.port) :
    ∃ rest rs, step s = .next { s with port := rest, responses := rs } := by
  cases hin : takeInput s.port with
  | waiting => exact ⟨_, _, step_of_waiting hin⟩
  | reset rest => exact absurd ⟨rest, .inr (takeInput_eq_reset hin)⟩ h
  | command t rest =>
    have hport := takeInput_eq_command hin
    by_cases hrst : decode t = .command .rst
    · exact absurd ⟨rest, .inl (eq_of_decode_eq_rst hrst ▸ hport)⟩ h
    · by_cases hrds : decode t = .command .rds
      · exact ⟨rest, _, (step_of_command hport hrds).trans (exec_rds _)⟩
      · exact ⟨rest, _, step_of_fault hf hport hrst hrds⟩

/-- Settles O13: the next input is one that leaves FAULT, or it is not. -/
theorem faultIsSticky : Obligations.FaultIsSticky := by
  intro s hf
  by_cases hl : LeavesFault s.port
  · obtain ⟨t, ht, hclear⟩ := step_of_leavesFault hl
    exact ⟨t, ht, fun _ => hclear, fun hk => absurd hl (not_leavesFault.mpr hk)⟩
  · obtain ⟨rest, rs, ht⟩ := step_of_not_leavesFault hf hl
    exact ⟨_, ht, fun h => absurd h hl, fun _ => ⟨hf, rfl, rfl, rfl, rfl, rfl⟩⟩

end Sys2Proof.Machine

namespace Sys2Proof.Machine

/-! The reset input (R210, R211). -/

/-- `takeInput_eq_reset` the other way: an unfinished transaction does not hold the reset input up. -/
theorem takeInput_of_reset {p rest : List PortInput}
    (h : p = .reset :: rest ∨ ∃ q, p = .unfinished q :: .reset :: rest) : takeInput p = .reset rest := by
  obtain rfl | ⟨q, rfl⟩ := h <;> rw [takeInput]

/-- Settles O15: the core takes the reset input in either form, and resets with the rest of the port before it. -/
theorem resetState : Obligations.ResetState :=
  ⟨⟨rfl, rfl, rfl, rfl⟩, fun s rest h =>
    ⟨(s.setPort rest).hardwareReset, step_of_reset (takeInput_of_reset h), by simp⟩⟩

end Sys2Proof.Machine
